-- ==== Sys2Proof/Word.lean ====
section
/-! DEFINITION. The words of the machine: a byte, a 16-bit register word, a 24-bit address
(spec/00_scope.md R6). -/

namespace Sys2Proof

/-- A byte: an opcode, an operand byte, a byte of memory, `DBR`, `PBR` or `P` (R6). -/
abbrev Byte := BitVec 8

/-- A 16-bit register value (R6). -/
abbrev Word := BitVec 16

/-- A 24-bit address, `0x000000` to `0xFFFFFF` (R6). -/
abbrev Addr := BitVec 24

end Sys2Proof
end

