-- ==== Sys2Proof/Syntax.lean ====
section
/-! DEFINITION. The instructions as syntax (spec/30_encoding.md R75 to R78), and the closed sets of names the opcode
table is made of: tags, operand-width classes and handlers (R66, R75, spec/40_pipeline.md R94). -/

namespace Sys2Proof

/-- An immediate as it stands in the instruction stream: one byte in 8-bit accumulator mode, one little-endian
word in 16-bit mode (class Variable, R70). -/
inductive Imm where
  | byte (b : Byte)
  | word (w : Word)
  deriving DecidableEq, Repr

/-- The instructions: one constructor for each implemented row of the opcode table (R76) and one for the default
entry of the 249 other bytes (R77), which carries the byte so that every row has its own instruction value. -/
inductive Instr where
  /-- ADC #imm, opcode 0x69, class Variable (R107). -/
  | adcImm (imm : Imm)
  /-- ADC abs, opcode 0x6D, class Word (R109, R110). -/
  | adcAbs (addr : Word)
  /-- ADC long, opcode 0x6F, class Long: the far bank, then the offset (R71, R111). -/
  | adcLong (bank : Byte) (addr : Word)
  /-- LDA #imm, opcode 0xA9, class Variable (R120). -/
  | ldaImm (imm : Imm)
  /-- NOP, opcode 0xEA, class None (R125). -/
  | nop
  /-- STP, opcode 0x00, class None (R78, R127). -/
  | stp00
  /-- STP, opcode 0xDB, class None (R76, R127). -/
  | stpDB
  /-- HALT, the default entry of the opcode byte `op`, class None (R77, R131). -/
  | halt (op : Byte)
  deriving DecidableEq, Repr

/-- The mnemonic tag of an opcode-table entry (R75 to R77). -/
inductive Tag where
  | adc | lda | nop | stp | halt
  deriving DecidableEq, Repr

/-- The operand-width class of an opcode-table entry (R66). -/
inductive WidthClass where
  | none | byte | word | long | variable
  deriving DecidableEq, Repr

/-- The closed set of handlers (R94). -/
inductive Handler where
  | adcImm | adcAbs | adcLong | ldaImm | nop | stp | halt
  deriving DecidableEq, Repr

/-- An opcode-table entry: mnemonic tag, operand-width class, handler (R75). -/
structure OpcodeEntry where
  tag : Tag
  cls : WidthClass
  handler : Handler
  deriving DecidableEq, Repr

/-- Why a list of bytes is no instruction: the only reason is that it is too short, since every opcode byte decodes
to an entry (R75, R79). -/
inductive DecodeError where
  /-- There is no opcode byte. -/
  | noOpcode
  /-- The operand byte number `k` (1, 2 or 3) is missing. -/
  | missingOperandByte (k : Nat)
  deriving DecidableEq, Repr

end Sys2Proof
end

