-- ==== Sys2Proof/WellFormed.lean ====
section
/-! DEFINITION. Which instruction values stand for bytes the machine can decode, at a given accumulator width. -/

namespace Sys2Proof

/-- The seven implemented opcode bytes (spec/30_encoding.md R76, spec/43_control.md R130). -/
def implementedOpcodes : List Byte := [0x00, 0x69, 0x6D, 0x6F, 0xA9, 0xDB, 0xEA]

/-- The immediate has the width that `P.M` selects: one byte iff `m` is set (R70). -/
def Imm.fits (m : Bool) : Imm → Bool
  | .byte _ => m
  | .word _ => !m

/-- Well-formed at accumulator mode `m` (`P.M`): an immediate has the mode's width (R70, R81), and the byte of a
default entry is none of the implemented ones (R77, R130). -/
def Instr.wellFormed (m : Bool) : Instr → Bool
  | .adcImm imm => imm.fits m
  | .ldaImm imm => imm.fits m
  | .adcAbs _ => true
  | .adcLong _ _ => true
  | .nop => true
  | .stp00 => true
  | .stpDB => true
  | .halt op => !implementedOpcodes.contains op

end Sys2Proof
end

