-- ==== Sys2Proof/Decode.lean ====
section
/-! DEFINITION. Byte order, the opcode table, the decoder (total, from the table) and the encoder
(spec/30_encoding.md). The decoder reads its operand bytes through a reader `rd`, so that the same decoder serves a
list of bytes (`decode`) and the machine's memory (Machine/Fetch.lean). -/

namespace Sys2Proof

/-! ### Byte order (spec/20_memory.md R53: little-endian, fixed) -/

/-- Bits 7 to 0 of a word: the byte at the lower address (R53). -/
def loByte (w : Word) : Byte := w.extractLsb' 0 8

/-- Bits 15 to 8 of a word: the byte at the higher address (R53). -/
def hiByte (w : Word) : Byte := w.extractLsb' 8 8

/-- `lo | (hi << 8)` (R49, R53). -/
def wordOf (lo hi : Byte) : Word := lo.setWidth 16 ||| (hi.setWidth 16 <<< 8)

/-- `zext_16` of a byte (R9). -/
def zext16 (b : Byte) : Word := b.setWidth 16

/-! ### The opcode table (R75 to R78) -/

/-- The opcode table, total over the 256 bytes: seven implemented entries (R76), HALT everywhere else (R77). -/
def opcodeTable (op : Byte) : OpcodeEntry :=
  if op = 0x69 then { tag := .adc, cls := .variable, handler := .adcImm }
  else if op = 0x6D then { tag := .adc, cls := .word, handler := .adcAbs }
  else if op = 0x6F then { tag := .adc, cls := .long, handler := .adcLong }
  else if op = 0xA9 then { tag := .lda, cls := .variable, handler := .ldaImm }
  else if op = 0xEA then { tag := .nop, cls := .none, handler := .nop }
  else if op = 0x00 then { tag := .stp, cls := .none, handler := .stp }
  else if op = 0xDB then { tag := .stp, cls := .none, handler := .stp }
  else { tag := .halt, cls := .none, handler := .halt }

/-- Class Variable becomes Byte when `m_snap` is set, else Word (R70, R91); the other classes stand. -/
def WidthClass.resolved (m : Bool) : WidthClass → WidthClass
  | .variable => if m then .byte else .word
  | .none => .none
  | .byte => .byte
  | .word => .word
  | .long => .long

/-- How many operand bytes a class consumes, Variable at `m_snap = m` (R66, R70). -/
def WidthClass.operandBytes (m : Bool) : WidthClass → Nat
  | .none => 0
  | .byte => 1
  | .word => 2
  | .long => 3
  | .variable => if m then 1 else 2

/-! ### Operand resolution (R67 to R72, spec/40_pipeline.md R91): `rd k` reads the byte at `ia + k` -/

/-- Class Byte: the byte at `ia + 1` (R68). -/
def resolveByte {ε : Type} (rd : Nat → Except ε Byte) : Except ε Byte := rd 1

/-- A little-endian word whose low byte is at `ia + k` (R69, R72): the low byte is read first. -/
def resolveWordAt {ε : Type} (rd : Nat → Except ε Byte) (k : Nat) : Except ε Word := do
  let lo ← rd k
  let hi ← rd (k + 1)
  return wordOf lo hi

/-- Class Long: the bank byte at `ia + 1`, then the word at `ia + 2` (R71). -/
def resolveLong {ε : Type} (rd : Nat → Except ε Byte) : Except ε (Byte × Word) := do
  let bank ← rd 1
  let addr ← resolveWordAt rd 2
  return (bank, addr)

/-- Class Variable: Byte when `m_snap` is set, else Word (R70). -/
def resolveVariable {ε : Type} (m : Bool) (rd : Nat → Except ε Byte) : Except ε Imm :=
  if m then do
    let b ← resolveByte rd
    return .byte b
  else do
    let w ← resolveWordAt rd 1
    return .word w

/-! ### Decode -/

/-- The STP entry's two bytes, `0x00` and `0xDB` (R76, R78). -/
def stpOfOpcode (op : Byte) : Instr := if op = 0x00 then .stp00 else .stpDB

/-- Decode the opcode byte `op` at `m_snap = m`, reading its operand bytes through `rd`
(R75: the entry depends on the opcode byte alone; R91: the operand is read by the entry's class). -/
def decodeOp {ε : Type} (m : Bool) (op : Byte) (rd : Nat → Except ε Byte) : Except ε Instr :=
  match (opcodeTable op).handler with
  | .adcImm => do
    let imm ← resolveVariable m rd
    return .adcImm imm
  | .adcAbs => do
    let addr ← resolveWordAt rd 1
    return .adcAbs addr
  | .adcLong => do
    let o ← resolveLong rd
    return .adcLong o.1 o.2
  | .ldaImm => do
    let imm ← resolveVariable m rd
    return .ldaImm imm
  | .nop => .ok .nop
  | .stp => .ok (stpOfOpcode op)
  | .halt => .ok (.halt op)

/-- The `k`-th byte of an instruction that stands in a list, or the name of what is missing. -/
def listReader (bytes : List Byte) (k : Nat) : Except DecodeError Byte :=
  match bytes[k]? with
  | some b => .ok b
  | none => .error (.missingOperandByte k)

/-- How many operand bytes an immediate takes (R70). -/
def Imm.nbytes : Imm → Nat
  | .byte _ => 1
  | .word _ => 2

/-- The number of operand bytes of an instruction, `nbytes` of R91. -/
def Instr.nbytes : Instr → Nat
  | .adcImm imm => imm.nbytes
  | .adcAbs _ => 2
  | .adcLong _ _ => 3
  | .ldaImm imm => imm.nbytes
  | .nop => 0
  | .stp00 => 0
  | .stpDB => 0
  | .halt _ => 0

/-- Instruction length in bytes: one opcode byte plus the operand bytes (R65, R74). -/
def Instr.length (i : Instr) : Nat := 1 + i.nbytes

/-- Decode the instruction at the head of a list of bytes at `m_snap = m`; the rest of the list is returned. -/
def decode (m : Bool) (bytes : List Byte) : Except DecodeError (Instr × List Byte) :=
  match bytes with
  | [] => .error .noOpcode
  | op :: _ => do
    let i ← decodeOp m op (listReader bytes)
    return (i, bytes.drop i.length)

/-! ### Encode (R65, R67 to R71, R76, R77) -/

/-- The opcode byte of an instruction (R76, R77). -/
def Instr.opcode : Instr → Byte
  | .adcImm _ => 0x69
  | .adcAbs _ => 0x6D
  | .adcLong _ _ => 0x6F
  | .ldaImm _ => 0xA9
  | .nop => 0xEA
  | .stp00 => 0x00
  | .stpDB => 0xDB
  | .halt op => op

/-- The operand bytes of an immediate, in address order (R68 to R70). -/
def Imm.bytes : Imm → List Byte
  | .byte b => [b]
  | .word w => [loByte w, hiByte w]

/-- The operand bytes of an instruction, in address order; the Long operand has its bank byte first (R71). -/
def Instr.operandBytes : Instr → List Byte
  | .adcImm imm => imm.bytes
  | .adcAbs addr => [loByte addr, hiByte addr]
  | .adcLong bank addr => [bank, loByte addr, hiByte addr]
  | .ldaImm imm => imm.bytes
  | .nop => []
  | .stp00 => []
  | .stpDB => []
  | .halt _ => []

/-- The bytes of an instruction as memory holds them: the opcode byte, then the operand bytes (R65). -/
def encode (i : Instr) : List Byte := i.opcode :: i.operandBytes

/-! ### The host's view of an opcode-table row -/

/-- The four bytes (the longest instruction, R65) of the table word `w` of `nbits` bits: byte `k` is bits
`8k+7..8k`, and every bit above `nbits` is 0. -/
def tableWordBytes (nbits w : Nat) : List Byte :=
  let v := w % 2 ^ nbits
  [BitVec.ofNat 8 v, BitVec.ofNat 8 (v / 0x100), BitVec.ofNat 8 (v / 0x10000), BitVec.ofNat 8 (v / 0x1000000)]

/-- What the decoder reads from a table word, at the accumulator mode of the reset state (`P.M = 0`, R35, R156;
log 8). -/
def decodeTableWord (nbits w : Nat) : Option Instr :=
  match decode false (tableWordBytes nbits w) with
  | .ok (i, _) => some i
  | .error _ => none

end Sys2Proof
end

