-- ==== Sys2Proof/Config.lean ====
section
/-! DEFINITION. What the spec leaves to the platform (spec/00_scope.md R7, decisions D11 and D12): the reset
parameters, the bounds of `MEM_SIZE`, what an unlisted byte reads as, and the values `State.reset` takes for them. -/

namespace Sys2Proof

/-- The six reset values the source does not state, as parameters (R7, R35, R155, R157; D11). A claim about
"the" reset quantifies over these. -/
structure ResetParams where
  a : Word
  x : Word
  y : Word
  s : Word
  dp : Word
  dbr : Byte
  deriving DecidableEq, Repr

/-- DESIGN CHOICE (unsafe, log 1): the parameters `State.reset` takes; R35 says a simulator may pick 0. -/
def Config.resetParams : ResetParams :=
  { a := 0x0000, x := 0x0000, y := 0x0000, s := 0x0000, dp := 0x0000, dbr := 0x00 }

/-- The number of addresses of the 24-bit space, the largest `MEM_SIZE` (R7, R45). -/
def Config.addressSpace : Nat := 0x1000000

/-- DESIGN CHOICE (unsafe, log 2): the `MEM_SIZE` of `State.reset`, the whole 24-bit space. Every statement
about memory holds for every size, since the size stands in the state. -/
def Config.resetMemSize : Nat := Config.addressSpace

/-- DESIGN CHOICE (unsafe, log 3): what an in-bounds byte reads as where memory lists nothing. -/
def Config.blankByte : Byte := 0x00

end Sys2Proof
end

