-- ==== Sys2Proof/Machine/State.lean ====
section
/-! DEFINITION. The machine's state as plain data (spec/10_state.md R20, R37), its faults and refusals, and the state
right after reset (R35, spec/70_reset_and_hazards.md R155). -/

namespace Sys2Proof.Machine

/-- The eight named status flags, a closed set (spec/10_state.md R27, R30). -/
inductive Flag where
  | carry | zero | irqDisable | decimal | indexSize | accSize | overflow | negative
  deriving DecidableEq, Repr

/-- The nine registers, by the names the register port uses (R20, R38). -/
inductive RegName where
  | A | X | Y | S | DBR | PBR | DP | PC | P
  deriving DecidableEq, Repr

/-- The register file, "one `CpuRegisters` record" with exactly these fields (R20). The packed byte `p` is the
status register; the eight flags are its bits (R28). -/
structure CpuRegisters where
  /-- Accumulator (R21). -/
  a : Word
  /-- Index register X, inert in scope (R22). -/
  x : Word
  /-- Index register Y, inert in scope (R22). -/
  y : Word
  /-- Stack pointer, inert in scope (R26). -/
  s : Word
  /-- Data bank (R25). -/
  dbr : Byte
  /-- Program bank (R24). -/
  pbr : Byte
  /-- Direct page, inert in scope (R26). -/
  dp : Word
  /-- Offset of the next opcode inside bank `pbr` (R23). -/
  pc : Word
  /-- Status register (R27). -/
  p : Byte
  deriving DecidableEq, Repr

/-- The memory image: `size` bytes `mem[0 .. size-1]` (spec/20_memory.md R45). `cells` lists the bytes that
differ from `Config.blankByte`, by strictly rising address; an address below `size` that is not listed reads as
`Config.blankByte` (log 3), and an address from `size` on does not exist (R45, R48). -/
structure Memory where
  size : Nat
  cells : List Host.Cell
  deriving DecidableEq, Repr

/-- What the last step returned to the driving loop (spec/40_pipeline.md R85, R99); the counts are 8-bit (R100).
`none` before the first step (log 4). -/
inductive StepOutput where
  | none
  | running (n : BitVec 8)
  | halted (n : BitVec 8)
  deriving DecidableEq, Repr

/-- The machine's state: the pair of the register record and the memory (R37), and the output of the last step,
which is the model's own field and which nothing in the core reads (log 4). -/
structure State where
  regs : CpuRegisters
  mem : Memory
  out : StepOutput
  deriving DecidableEq, Repr

/-- Which access of a step a memory fault belongs to (spec/60_exceptions.md R135). -/
inductive Phase where
  | opcode | operand | data
  deriving DecidableEq, Repr

/-- What a failing memory primitive raises: the phase its caller named, and the first address out of bounds
(spec/20_memory.md R51). -/
structure MemError where
  phase : Phase
  addr : Nat
  deriving DecidableEq, Repr

/-- The fault record, `info` of `Fault(info)`, with the spec's field widths (R135). -/
structure FaultInfo where
  code : BitVec 8
  phase : Phase
  addr : BitVec 25
  ia : Addr
  opcode : Option Byte
  deriving DecidableEq, Repr

/-- Why a step ends in a fault. -/
inductive Fault where
  /-- A byte the step must read is at an address `>= MEM_SIZE` (R135): raised by the opcode fetch, the operand fetch
  and the data read of ADC absolute and ADC long (R137). Safe: it is the spec's own fault, and the state is
  unchanged (R138). -/
  | outOfBounds (info : FaultInfo)
  deriving DecidableEq, Repr

/-- Why a step has no meaning. -/
inductive Refusal where
  /-- An instruction `exec` has no meaning for yet: raised by no arm of this model. Safe. -/
  | notModelled (mnemonic : String)
  deriving DecidableEq, Repr

/-- The register record after reset, for any values of the parameters (R35, R155, R157). -/
def CpuRegisters.reset (rp : ResetParams) : CpuRegisters :=
  { a := rp.a, x := rp.x, y := rp.y, s := rp.s, dbr := rp.dbr, dp := rp.dp, pbr := 0x80, pc := 0x8000, p := 0x00 }

/-- The machine right after reset: the reset registers at the parameters of Config (log 1), a memory of
`Config.resetMemSize` bytes with nothing listed (logs 2 and 3), no step taken yet (log 4). -/
def State.reset : State :=
  { regs := CpuRegisters.reset Config.resetParams,
    mem := { size := Config.resetMemSize, cells := [] },
    out := .none }

end Sys2Proof.Machine
end

