-- ==== Sys2Proof/Machine/Flags.lean ====
section
/-! DEFINITION. The status register's bits and operations (spec/10_state.md R27 to R33) and the flag computations of
ADC and LDA (spec/41_arithmetic.md R105, R112; spec/42_load.md R120). -/

namespace Sys2Proof.Machine

/-- The bit number of each flag in the packed byte (R27; log 11). -/
def Flag.bit : Flag → Nat
  | .carry => 0
  | .zero => 1
  | .irqDisable => 2
  | .decimal => 3
  | .indexSize => 4
  | .accSize => 5
  | .overflow => 6
  | .negative => 7

/-- The eight flags in bit order, 0 to 7 (R27, R38). -/
def Flag.all : List Flag :=
  [.carry, .zero, .irqDisable, .decimal, .indexSize, .accSize, .overflow, .negative]

/-- Flag `f` of the packed byte `p` (R28). -/
def flagOf (p : Byte) (f : Flag) : Bool := p.getLsbD f.bit

/-- `p` with exactly the bit of `f` written to `v` (R28). -/
def withFlag (p : Byte) (f : Flag) (v : Bool) : Byte :=
  if v then p ||| (1#8 <<< f.bit) else p &&& ~~~(1#8 <<< f.bit)

/-- `get_flag(f)` (R30). -/
def getFlag (f : Flag) (r : CpuRegisters) : Bool := flagOf r.p f

/-- `P.M`, the AccSize flag: set means 8-bit accumulator mode (R27). -/
def accIs8 (r : CpuRegisters) : Bool := getFlag .accSize r

/-- `set_flag(f)`: bit `f` of `P` becomes 1, and setting AccSize truncates `A` to its low byte (R30). -/
def setFlag (f : Flag) (r : CpuRegisters) : CpuRegisters :=
  match f with
  | .accSize => { r with p := withFlag r.p .accSize true, a := zext16 (loByte r.a) }
  | f => { r with p := withFlag r.p f true }

/-- `clear_flag(f)`: bit `f` of `P` becomes 0; `A` is not changed, even for AccSize (R30, R33). -/
def clearFlag (f : Flag) (r : CpuRegisters) : CpuRegisters :=
  { r with p := withFlag r.p f false }

/-! ### Flag computations -/

/-- Unsigned overflow of `a + b` at width `n`: the exact sum exceeds `2^n - 1` (R105). -/
def unsignedOverflow {n : Nat} (a b : BitVec n) : Bool := decide (2 ^ n - 1 < a.toNat + b.toNat)

/-- `signed_overflow_n(a, b)`: the exact signed sum is outside `[-2^(n-1), 2^(n-1) - 1]`
(spec/00_scope.md R9). -/
def signedOverflow {n : Nat} (a b : BitVec n) : Bool :=
  decide (a.toInt + b.toInt < -(2 ^ (n - 1) : Int)) || decide ((2 ^ (n - 1) : Int) - 1 < a.toInt + b.toInt)

/-- The sign bit of a result (R105). -/
def signBit {n : Nat} (v : BitVec n) : Bool := v.getLsbD (n - 1)

/-- `P.C`, `P.V`, `P.N` and `P.Z` written together, as ADC does (R105, R112): no other bit of `P` changes. -/
def withAdcFlags (p : Byte) (c v n z : Bool) : Byte :=
  withFlag (withFlag (withFlag (withFlag p .carry c) .overflow v) .negative n) .zero z

end Sys2Proof.Machine
end

