-- ==== Sys2Proof/Machine/Ops.lean ====
section
/-! DEFINITION. The named operations over memory and registers: address composition, the memory read and write
primitives (spec/20_memory.md), the fault every failing access takes (spec/60_exceptions.md R135 to R138), and the two
ways a handler's result ends a step (spec/40_pipeline.md R97 to R99). -/

namespace Sys2Proof.Machine

/-! ### Addresses -/

/-- `compose(bank, offset) = (bank << 16) | offset` (R46). -/
def compose (bank : Byte) (offset : Word) : Addr := (bank.setWidth 24 <<< 16) ||| offset.setWidth 24

/-- The instruction address `ia = compose(PBR, PC)` of a step (R86). -/
def instrAddr (r : CpuRegisters) : Addr := compose r.pbr r.pc

/-! ### Memory as a canonical list of cells -/

/-- The byte a list of cells holds at an address; an unlisted address reads as `Config.blankByte`. -/
def lookupCell : List Host.Cell → Nat → Byte
  | [], _ => Config.blankByte
  | (k, v) :: rest, a => if k = a then v else lookupCell rest a

/-- Write one byte into a list of cells, keeping the addresses strictly rising and listing no blank byte. -/
def insertCell : List Host.Cell → Nat → Byte → List Host.Cell
  | [], a, v => if v = Config.blankByte then [] else [(a, v)]
  | (k, w) :: rest, a, v =>
    if a < k then (if v = Config.blankByte then (k, w) :: rest else (a, v) :: (k, w) :: rest)
    else if a = k then (if v = Config.blankByte then rest else (a, v) :: rest)
    else (k, w) :: insertCell rest a v

/-- The cells' addresses are strictly rising and at least `lo`, below `size`, and no cell is blank. -/
def canonicalFrom (lo size : Nat) : List Host.Cell → Bool
  | [] => true
  | (k, v) :: rest =>
    decide (lo ≤ k) && decide (k < size) && !decide (v = Config.blankByte) && canonicalFrom (k + 1) size rest

/-- The memory is well formed: `1 <= MEM_SIZE <= 2^24` (R7, R45) and the cells are in canonical form. -/
def Memory.wf (m : Memory) : Bool :=
  decide (1 ≤ m.size) && decide (m.size ≤ Config.addressSpace) && canonicalFrom 0 m.size m.cells

/-- Is the address in bounds, `a < MEM_SIZE` (R45)? -/
def Memory.inBounds (m : Memory) (a : Nat) : Bool := decide (a < m.size)

/-- `get_byte(addr)`: the byte, or the address that is out of bounds; no wrap, no truncation (R48). -/
def Memory.getByte (m : Memory) (a : Nat) : Except Nat Byte :=
  if m.inBounds a then .ok (lookupCell m.cells a) else .error a

/-- `get_word(addr)`: little-endian, the second byte at `addr + 1` as an integer (R49), the low byte checked
first (R50). -/
def Memory.getWord (m : Memory) (a : Nat) : Except Nat Word := do
  let lo ← m.getByte a
  let hi ← m.getByte (a + 1)
  return wordOf lo hi

/-- A port's answer, labelled with the phase of the access (R51). -/
def labelled {α : Type} (ph : Phase) : Except Nat α → Except MemError α
  | .ok v => .ok v
  | .error a => .error { phase := ph, addr := a }

/-- `MemRead(addr, 1, phase)` (R51). -/
def Memory.read1 (m : Memory) (a : Nat) (ph : Phase) : Except MemError Byte := labelled ph (m.getByte a)

/-- `MemRead(addr, 2, phase)` (R51). -/
def Memory.read2 (m : Memory) (a : Nat) (ph : Phase) : Except MemError Word := labelled ph (m.getWord a)

/-- `mem[a] <- v` for an address already known to be in bounds. -/
def Memory.poke (m : Memory) (a : Nat) (v : Byte) : Memory := { m with cells := insertCell m.cells a v }

/-- `MemWrite(addr, 1, v)`, phase DATA (R52). No instruction uses it. -/
def Memory.write1 (m : Memory) (a : Nat) (v : Byte) : Except MemError Memory :=
  if m.inBounds a then .ok (m.poke a v) else .error { phase := .data, addr := a }

/-- `MemWrite(addr, 2, v)`, phase DATA: both bytes are checked before either is written (R52). -/
def Memory.write2 (m : Memory) (a : Nat) (v : Word) : Except MemError Memory :=
  if !m.inBounds a then .error { phase := .data, addr := a }
  else if !m.inBounds (a + 1) then .error { phase := .data, addr := a + 1 }
  else .ok ((m.poke a (loByte v)).poke (a + 1) (hiByte v))

/-- The bytes of an image from address `a` on, as cells: blank bytes are not listed. -/
def imageCells : Nat → List Byte → List Host.Cell
  | _, [] => []
  | a, b :: rest => if b = Config.blankByte then imageCells (a + 1) rest else (a, b) :: imageCells (a + 1) rest

/-- The memory whose image is the given bytes: `MEM_SIZE` is their number, `MEM_INIT` the bytes (R7, R45). -/
def Memory.ofImage (image : List Byte) : Memory := { size := image.length, cells := imageCells 0 image }

/-! ### Taking the one exception -/

/-- `raise OutOfBounds`: the step ends with the fault record (R135). Nothing is saved and no state changes
(R138, R139), so the outcome carries the record and no state. There is no return from it (R144). -/
def raiseFault (s : State) (opcode : Option Byte) (e : MemError) : Host.Outcome State Fault Refusal :=
  .fault (.outOfBounds
    { code := 1, phase := e.phase, addr := BitVec.ofNat 25 e.addr, ia := instrAddr s.regs, opcode := opcode })

/-- The 2-bit number of a phase (R135). -/
def Phase.num : Phase → BitVec 2
  | .opcode => 0
  | .operand => 1
  | .data => 2

/-! ### How a handler's result ends the step -/

/-- `PC <- (PC + 1 + nbytes) mod 2^16`; `PBR` is not changed (spec/40_pipeline.md R97). -/
def advancePc (nbytes : Nat) (r : CpuRegisters) : CpuRegisters :=
  { r with pc := r.pc + BitVec.ofNat 16 (1 + nbytes) }

/-- A handler that returns `Some(n)` with registers `r`: the dispatcher advances `PC`, and the step returns
`Running(n)` (R97, R99). -/
def retire (s : State) (r : CpuRegisters) (nbytes : Nat) (n : BitVec 8) : Host.Outcome State Fault Refusal :=
  .next { s with regs := advancePc nbytes r, out := .running n }

/-- A handler that returns `None`: no register changes, `PC` stays at the halting opcode, and the step returns
`Halted(3)` (R98, R99). -/
def retireHalted (s : State) : Host.Outcome State Fault Refusal :=
  .next { s with out := .halted 3 }

end Sys2Proof.Machine
end

