-- ==== Sys2Proof/Machine/Operands.lean ====
section
/-! DEFINITION. The operand forms: immediate (spec/30_encoding.md R68 to R70, R73), absolute and absolute long
(spec/41_arithmetic.md R109 to R111). -/

namespace Sys2Proof.Machine

/-- The 16-bit operand a handler receives from an immediate: a byte is zero-extended, nothing else is done
(R68, R69, R73). -/
def immValue : Imm → Word
  | .byte b => zext16 b
  | .word w => w

/-- The effective address of the ADC absolute handler: the far bank if one is supplied, else `DBR`, composed with
the offset (R109). -/
def effectiveAddr (farBank : Option Byte) (offset : Word) (r : CpuRegisters) : Addr :=
  match farBank with
  | some b => compose b offset
  | none => compose r.dbr offset

/-- The handler's data read, phase DATA: one byte zero-extended when `P.M = 1`, a little-endian word when
`P.M = 0` (R109; D8). -/
def readData (r : CpuRegisters) (m : Memory) (ea : Addr) : Except MemError Word :=
  if accIs8 r then (m.read1 ea.toNat .data).map zext16 else m.read2 ea.toNat .data

end Sys2Proof.Machine
end

