-- ==== Sys2Proof/Machine/Arith.lean ====
section
/-! DEFINITION. ADC (spec/41_arithmetic.md). -/

namespace Sys2Proof.Machine

/-- The operand after the carry-in: `(v + 1) mod 2^16` if Carry is set, else `v` (R105, first line). -/
def withCarryIn (v : Word) (r : CpuRegisters) : Word := if getFlag .carry r then v + 1 else v

/-- `adc_core` in 8-bit mode: the low bytes of `A` and of the incremented operand are added, and `A` becomes the
8-bit sum with a zero high byte (R105). -/
def adcCore8 (v : Word) (r : CpuRegisters) : CpuRegisters :=
  let a := loByte r.a
  let b := loByte (withCarryIn v r)
  let sum := a + b
  let acc := zext16 sum
  { r with
    a := acc
    p := withAdcFlags r.p (unsignedOverflow a b) (signedOverflow a b) (signBit sum) (decide (acc = 0)) }

/-- `adc_core` in 16-bit mode (R105). -/
def adcCore16 (v : Word) (r : CpuRegisters) : CpuRegisters :=
  let a := r.a
  let b := withCarryIn v r
  let sum := a + b
  { r with
    a := sum
    p := withAdcFlags r.p (unsignedOverflow a b) (signedOverflow a b) (signBit sum) (decide (sum = 0)) }

/-- `adc_core(v)`, at the width `P.M` selects; binary whatever `P.D` holds (R105, R115). -/
def adcCore (v : Word) (r : CpuRegisters) : CpuRegisters :=
  if accIs8 r then adcCore8 v r else adcCore16 v r

/-- One extra cycle when the operand, before carry-in, is zero (R107, R109; D7). -/
def zeroExtra (v : Word) : BitVec 8 := if v = 0 then 1 else 0

/-- The base cost of an immediate form: 2 in 8-bit mode, 3 in 16-bit mode (R107, R122). -/
def immBase (r : CpuRegisters) : BitVec 8 := if accIs8 r then 2 else 3

/-- ADC immediate, opcode 0x69 (R107, R108). -/
def execAdcImm (imm : Imm) (s : State) : Host.Outcome State Fault Refusal :=
  retire s (adcCore (immValue imm) s.regs) imm.nbytes (immBase s.regs + zeroExtra (immValue imm))

/-- The ADC absolute handler, shared by opcodes 0x6D (no far bank, `nbytes = 2`, base 4) and 0x6F (far bank,
`nbytes = 3`, base 5): the data read comes before any register write (R96, R109). -/
def adcFromMemory (opcode : Byte) (farBank : Option Byte) (offset : Word) (nbytes : Nat) (base : BitVec 8)
    (s : State) : Host.Outcome State Fault Refusal :=
  match readData s.regs s.mem (effectiveAddr farBank offset s.regs) with
  | .error e => raiseFault s (some opcode) e
  | .ok value => retire s (adcCore value s.regs) nbytes (base + zeroExtra value)

/-- ADC absolute, opcode 0x6D (R109, R110). -/
def execAdcAbs (addr : Word) (s : State) : Host.Outcome State Fault Refusal :=
  adcFromMemory 0x6D none addr 2 4 s

/-- ADC absolute long, opcode 0x6F (R111). -/
def execAdcLong (bank : Byte) (addr : Word) (s : State) : Host.Outcome State Fault Refusal :=
  adcFromMemory 0x6F (some bank) addr 3 5 s

end Sys2Proof.Machine
end

