-- ==== Sys2Proof/Machine/Control.lean ====
section
/-! DEFINITION. NOP, STP and the default halt handler (spec/43_control.md). -/

namespace Sys2Proof.Machine

/-- NOP, opcode 0xEA: nothing but the `PC` advance, 2 cycles (R125, R126). -/
def execNop (s : State) : Host.Outcome State Fault Refusal := retire s s.regs 0 2

/-- STP, opcode 0x00: `Halted(3)`, nothing changes (R78, R127, R128). -/
def execStp00 (s : State) : Host.Outcome State Fault Refusal := retireHalted s

/-- STP, opcode 0xDB: `Halted(3)`, nothing changes (R127, R128). -/
def execStpDB (s : State) : Host.Outcome State Fault Refusal := retireHalted s

/-- HALT, the default entry of any other byte: `Halted(3)`, nothing changes, whatever the byte (R130 to R132). -/
def execHalt (_op : Byte) (s : State) : Host.Outcome State Fault Refusal := retireHalted s

end Sys2Proof.Machine
end

