-- ==== Sys2Proof/Machine/Load.lean ====
section
/-! DEFINITION. LDA (spec/42_load.md). -/

namespace Sys2Proof.Machine

/-- `A` loaded with the operand, masked to its low byte in 8-bit mode; only `P.Z` is written, from the whole new
`A` (R120, R121). -/
def ldaCore (v : Word) (r : CpuRegisters) : CpuRegisters :=
  let acc := if accIs8 r then zext16 (loByte v) else v
  { r with a := acc, p := withFlag r.p .zero (decide (acc = 0)) }

/-- LDA immediate, opcode 0xA9: 2 cycles in 8-bit mode, 3 in 16-bit mode, no zero extra (R120 to R124). -/
def execLdaImm (imm : Imm) (s : State) : Host.Outcome State Fault Refusal :=
  retire s (ldaCore (immValue imm) s.regs) imm.nbytes (immBase s.regs)

end Sys2Proof.Machine
end

