-- ==== Sys2Proof/Machine/Dispatch.lean ====
section
/-! DEFINITION. The dispatch on the handler tag, one arm per constructor (spec/40_pipeline.md R93, R94). -/

namespace Sys2Proof.Machine

/-- Run one decoded instruction: its handler, and the dispatcher's `PC` advance (R93, R97, R98). -/
def exec (i : Instr) (s : State) : Host.Outcome State Fault Refusal :=
  match i with
  | .adcImm imm => Sys2Proof.Machine.execAdcImm imm s
  | .adcAbs addr => Sys2Proof.Machine.execAdcAbs addr s
  | .adcLong bank addr => Sys2Proof.Machine.execAdcLong bank addr s
  | .ldaImm imm => Sys2Proof.Machine.execLdaImm imm s
  | .nop => Sys2Proof.Machine.execNop s
  | .stp00 => Sys2Proof.Machine.execStp00 s
  | .stpDB => Sys2Proof.Machine.execStpDB s
  | .halt op => Sys2Proof.Machine.execHalt op s

end Sys2Proof.Machine
end

