-- ==== Sys2Proof/Machine/Fetch.lean ====
section
/-! DEFINITION. Fetch, decode and operand resolution from memory (spec/40_pipeline.md R86 to R92), and the storing of a
table word where the next step fetches. -/

namespace Sys2Proof.Machine

/-- The byte at `ia + k` as an integer sum, with no wrap inside the bank (spec/30_encoding.md R72). -/
def fetchByte (s : State) (ph : Phase) (k : Nat) : Except MemError Byte :=
  s.mem.read1 ((instrAddr s.regs).toNat + k) ph

/-- The opcode byte, phase OPCODE (R86). -/
def fetchOpcode (s : State) : Except MemError Byte := fetchByte s .opcode 0

/-- The instruction of opcode byte `op`, its operand bytes read from memory in phase OPERAND, at
`m_snap = P.M` (R90, R91). -/
def fetchOperands (s : State) (op : Byte) : Except MemError Instr :=
  decodeOp (accIs8 s.regs) op (fetchByte s .operand)

/-- Store bytes at `a`, `a + 1`, ...; a byte whose address is out of bounds is not stored. -/
def pokeBytes (m : Memory) (a : Nat) : List Byte → Memory
  | [] => m
  | b :: rest => pokeBytes (if m.inBounds a then m.poke a b else m) (a + 1) rest

/-- Memory with the four bytes of a table word stored at the instruction address (log 8). -/
def fetchWordMemory (s : State) (nbits w : Nat) : Memory :=
  pokeBytes s.mem (instrAddr s.regs).toNat (tableWordBytes nbits w)

end Sys2Proof.Machine
end

