-- ==== Sys2Proof/Machine/Step.lean ====
section
/-! DEFINITION. The step, the core's one operation (spec/40_pipeline.md R85, R102). -/

namespace Sys2Proof.Machine

/-- One step: fetch the opcode (a failure is the fault of phase OPCODE, with no opcode in its record, R87, R135),
decode and resolve the operand (a failure is the fault of phase OPERAND, R92), run the handler (R93). -/
def step (s : State) : Host.Outcome State Fault Refusal :=
  match fetchOpcode s with
  | .error e => raiseFault s none e
  | .ok op =>
    match fetchOperands s op with
    | .error e => raiseFault s (some op) e
    | .ok i => exec i s

/-- `s` with the table word `w` of `nbits` bits stored at its instruction address, so that the next step fetches and
runs that instruction; nothing else changes (log 8). -/
def State.withFetchWord (s : State) (nbits w : Nat) : State :=
  { s with mem := fetchWordMemory s nbits w }

end Sys2Proof.Machine
end

