-- ==== Sys2Proof/Machine/Asm.lean ====
section
/-! DEFINITION. The assembler notation of spec/30_encoding.md R81, as lists of characters: writing an instruction, and
reading one line of assembler text at a known `P.M`. There are no pseudo-instructions (R82). -/

namespace Sys2Proof.Machine

/-- The sixteen hexadecimal digits, in order. -/
def hexDigits : List Char :=
  ['0', '1', '2', '3', '4', '5', '6', '7', '8', '9', 'A', 'B', 'C', 'D', 'E', 'F']

/-- The digit of a 4-bit value. -/
def hexDigit (v : BitVec 4) : Char := hexDigits.getD v.toNat '0'

/-- The value of a hexadecimal digit. -/
def hexValue (c : Char) : Option (BitVec 4) :=
  if c ∈ hexDigits then some (BitVec.ofNat 4 (hexDigits.idxOf c)) else none

/-- Two digits, the more significant first. -/
def hexByte (b : Byte) : List Char := [hexDigit (b.extractLsb' 4 4), hexDigit (b.extractLsb' 0 4)]

/-- Four digits, the more significant byte first. -/
def hexWord (w : Word) : List Char := hexByte (hiByte w) ++ hexByte (loByte w)

/-- The byte two digits stand for. -/
def byteOfHex (h l : Char) : Option Byte := do
  let hi ← hexValue h
  let lo ← hexValue l
  return hi.setWidth 8 <<< 4 ||| lo.setWidth 8

/-- The operand field of an immediate: `#$nn` or `#$nnnn` (R81). -/
def asmImm : Imm → List Char
  | .byte b => ['#', '$'] ++ hexByte b
  | .word w => ['#', '$'] ++ hexWord w

/-- An instruction in the notation of R81. Both STP bytes are written `STP`. -/
def asm : Instr → List Char
  | .adcImm imm => ['A', 'D', 'C', ' '] ++ asmImm imm
  | .adcAbs addr => ['A', 'D', 'C', ' ', '$'] ++ hexWord addr
  | .adcLong bank addr => ['A', 'D', 'C', ' ', '$'] ++ hexByte bank ++ hexWord addr
  | .ldaImm imm => ['L', 'D', 'A', ' '] ++ asmImm imm
  | .nop => ['N', 'O', 'P']
  | .stp00 => ['S', 'T', 'P']
  | .stpDB => ['S', 'T', 'P']
  | .halt op => ['.', 'b', 'y', 't', 'e', ' ', '$'] ++ hexByte op

/-- What follows `head` in `text`, if `text` begins with it. -/
def afterHead : List Char → List Char → Option (List Char)
  | [], text => some text
  | _ :: _, [] => none
  | h :: hs, c :: cs => if h = c then afterHead hs cs else none

/-- An immediate's digits at accumulator mode `m`: two in 8-bit mode, four in 16-bit mode; a width that does not match
is refused (R81, spec/93_implementation_defined.md part 1). -/
def readImm (m : Bool) : List Char → Option Imm
  | [h, l] => if m then (byteOfHex h l).map Imm.byte else none
  | [a, b, c, d] =>
    if m then none else do
      let hi ← byteOfHex a b
      let lo ← byteOfHex c d
      return .word (wordOf lo hi)
  | _ => none

/-- An ADC address: four digits are absolute, six absolute long (R81). -/
def readAdcAddr : List Char → Option Instr
  | [a, b, c, d] => do
    let hi ← byteOfHex a b
    let lo ← byteOfHex c d
    return .adcAbs (wordOf lo hi)
  | [x, y, a, b, c, d] => do
    let bank ← byteOfHex x y
    let hi ← byteOfHex a b
    let lo ← byteOfHex c d
    return .adcLong bank (wordOf lo hi)
  | _ => none

/-- The default entry written as a byte: only a byte of R77 (R81). -/
def readHaltByte : List Char → Option Instr
  | [h, l] => do
    let op ← byteOfHex h l
    if implementedOpcodes.contains op then none else some (.halt op)
  | _ => none

/-- Read one line of assembler text at accumulator mode `m` (R81). `STP` assembles to the byte `DB`. -/
def readAsm (m : Bool) (text : List Char) : Option Instr :=
  match afterHead ['A', 'D', 'C', ' ', '#', '$'] text with
  | some ds => (readImm m ds).map Instr.adcImm
  | none =>
    match afterHead ['A', 'D', 'C', ' ', '$'] text with
    | some ds => readAdcAddr ds
    | none =>
      match afterHead ['L', 'D', 'A', ' ', '#', '$'] text with
      | some ds => (readImm m ds).map Instr.ldaImm
      | none =>
        match afterHead ['.', 'b', 'y', 't', 'e', ' ', '$'] text with
        | some ds => readHaltByte ds
        | none =>
          if text = ['N', 'O', 'P'] then some .nop
          else if text = ['S', 'T', 'P'] then some .stpDB
          else none

end Sys2Proof.Machine
end

