-- ==== Sys2Proof/Machine/Port.lean ====
section
/-! DEFINITION. The host's side of the core, between steps (spec/60_exceptions.md R152, R153): the register port
(spec/10_state.md R38), reset (spec/70_reset_and_hazards.md R155), memory loading and boot (R158, R159). No step calls
anything of this file. -/

namespace Sys2Proof.Machine

/-- `read(R)`: the value of a register, an unsigned integer (R9, R38). -/
def readReg (n : RegName) (r : CpuRegisters) : Nat :=
  match n with
  | .A => r.a.toNat
  | .X => r.x.toNat
  | .Y => r.y.toNat
  | .S => r.s.toNat
  | .DBR => r.dbr.toNat
  | .PBR => r.pbr.toNat
  | .DP => r.dp.toNat
  | .PC => r.pc.toNat
  | .P => r.p.toNat

/-- `write(A, v)`: only the low byte when `P.M = 1` (R38; INV-M). -/
def writeA (v : Nat) (r : CpuRegisters) : CpuRegisters :=
  { r with a := if accIs8 r then zext16 (BitVec.ofNat 8 v) else BitVec.ofNat 16 v }

/-- One bit of `write(P, v)`: `set_flag` or `clear_flag` (R38). -/
def writeFlagOf (v : Nat) (r : CpuRegisters) (f : Flag) : CpuRegisters :=
  if v.testBit f.bit then setFlag f r else clearFlag f r

/-- `write(P, v)`: the bits in order 0 to 7, each through `set_flag` or `clear_flag` (R38). -/
def writeP (v : Nat) (r : CpuRegisters) : CpuRegisters := Flag.all.foldl (writeFlagOf v) r

/-- `write(R, v)`: the value modulo the register's width (R38). -/
def writeReg (n : RegName) (v : Nat) (r : CpuRegisters) : CpuRegisters :=
  match n with
  | .A => writeA v r
  | .X => { r with x := BitVec.ofNat 16 v }
  | .Y => { r with y := BitVec.ofNat 16 v }
  | .S => { r with s := BitVec.ofNat 16 v }
  | .DBR => { r with dbr := BitVec.ofNat 8 v }
  | .PBR => { r with pbr := BitVec.ofNat 8 v }
  | .DP => { r with dp := BitVec.ofNat 16 v }
  | .PC => { r with pc := BitVec.ofNat 16 v }
  | .P => writeP v r

/-- Reset: the whole register record is replaced, memory is neither read nor written (R155). The output field shows
that no step has been taken since (log 4). -/
def resetCore (rp : ResetParams) (s : State) : State :=
  { s with regs := CpuRegisters.reset rp, out := .none }

/-- Boot: the host loads an image, then constructs the registers by reset (R158, R159). -/
def boot (rp : ResetParams) (image : List Byte) : State :=
  resetCore rp { regs := CpuRegisters.reset rp, mem := Memory.ofImage image, out := .none }

/-- What the host can do to the core's state between steps, beside calling `step` (R52, R153). -/
inductive HostAction where
  | reset (rp : ResetParams)
  | storeByte (addr : Nat) (v : Byte)
  | storeWord (addr : Nat) (v : Word)
  | writeReg (n : RegName) (v : Nat)
  | setFlag (f : Flag)
  | clearFlag (f : Flag)
  deriving DecidableEq, Repr

/-- The effect of a host action; only the two memory writes can fail, and then nothing changes (R30, R52). -/
def HostAction.apply (h : HostAction) (s : State) : Except MemError State :=
  match h with
  | .reset rp => .ok (resetCore rp s)
  | .storeByte addr v => (s.mem.write1 addr v).map fun m => { s with mem := m }
  | .storeWord addr v => (s.mem.write2 addr v).map fun m => { s with mem := m }
  | .writeReg n v => .ok { s with regs := Sys2Proof.Machine.writeReg n v s.regs }
  | .setFlag f => .ok { s with regs := Sys2Proof.Machine.setFlag f s.regs }
  | .clearFlag f => .ok { s with regs := Sys2Proof.Machine.clearFlag f s.regs }

end Sys2Proof.Machine
end

