-- ==== Sys2Proof/Machine/Run.lean ====
section
/-! DEFINITION. A run as the driving loop makes it (spec/40_pipeline.md R104): steps until the first `Halted` or
`Fault`, with the cycle counts the steps reported added up. -/

namespace Sys2Proof.Machine

/-- How a run of a bounded number of steps ended. -/
inductive RunEnd where
  /-- The bound was reached while the core was running. -/
  | unfinished (s : State) (cycles : Nat)
  /-- A step returned `Halted`: the state after that step (R104). -/
  | halted (s : State) (cycles : Nat)
  /-- A step returned `Fault`: the state before that step (R104, R138). -/
  | faulted (s : State) (f : Fault) (cycles : Nat)
  /-- A step was refused; no step of this model is. -/
  | refused (s : State) (r : Refusal) (cycles : Nat)
  deriving DecidableEq, Repr

/-- The run from `s` of at most `fuel` steps, `cycles` having been reported before (R104). -/
def runFrom : Nat → Nat → State → RunEnd
  | 0, cycles, s => .unfinished s cycles
  | fuel + 1, cycles, s =>
    match step s with
    | .fault f => .faulted s f cycles
    | .refused r => .refused s r cycles
    | .next t =>
      match t.out with
      | .halted n => .halted t (cycles + n.toNat)
      | .running n => runFrom fuel (cycles + n.toNat) t
      | .none => runFrom fuel cycles t

/-- A run of at most `fuel` steps (R104). -/
def run (fuel : Nat) (s : State) : RunEnd := runFrom fuel 0 s

end Sys2Proof.Machine
end

