-- ==== Sys2Proof/Safety.lean ====
section
/-! DEFINITION. The terms claims are stated in: the machine's invariant, what ADC leaves in exact numbers, and what an
instruction leaves alone. -/

namespace Sys2Proof.Machine

/-- INV-M: `P.M = 1` implies `A[15:8] = 0` (spec/10_state.md R32). -/
def InvM (r : CpuRegisters) : Prop := accIs8 r = true → r.a.toNat < 256

/-- The invariant of the machine: INV-M, and memory in its canonical form with a legal `MEM_SIZE`. -/
def Inv (s : State) : Prop := InvM s.regs ∧ s.mem.wf = true

/-- The states the machine and its host can reach: any boot with any parameters and any image of a legal size, then
any steps and host actions (spec/70_reset_and_hazards.md R159, spec/60_exceptions.md R153). -/
inductive Reachable : State → Prop where
  | boot (rp : ResetParams) (image : List Byte) (hlo : 1 ≤ image.length)
      (hhi : image.length ≤ Config.addressSpace) : Reachable (Sys2Proof.Machine.boot rp image)
  | step {s t : State} (hs : Reachable s) (h : Sys2Proof.Machine.step s = .next t) : Reachable t
  | host {s t : State} (a : HostAction) (hs : Reachable s) (h : a.apply s = .ok t) : Reachable t

/-- `sext_n(k)`: the two's-complement reading at width `n` of an unsigned number `k < 2^n`
(spec/00_scope.md R9). -/
def sext (n k : Nat) : Int := if k < 2 ^ (n - 1) then (k : Int) else (k : Int) - 2 ^ n

/-- What R105 and R112 say of an addition at width `n` of the unsigned numbers `a` and `b`: the new accumulator is
the sum modulo `2^n`, and the four flags follow from the exact sums. -/
def AddEffect (n a b : Nat) (r' : CpuRegisters) : Prop :=
  r'.a.toNat = (a + b) % 2 ^ n ∧
  (getFlag .carry r' = true ↔ 2 ^ n ≤ a + b) ∧
  (getFlag .overflow r' = true ↔
    (sext n a + sext n b < -(2 ^ (n - 1) : Int) ∨ (2 ^ (n - 1) : Int) ≤ sext n a + sext n b)) ∧
  (getFlag .negative r' = true ↔ 2 ^ (n - 1) ≤ (a + b) % 2 ^ n) ∧
  (getFlag .zero r' = true ↔ r'.a = 0)

/-- The incremented operand `w = (v + P.C) mod 2^16` (R112). -/
def incremented (v : Nat) (r : CpuRegisters) : Nat := (v + (getFlag .carry r).toNat) % 65536

/-- ADC of the 16-bit value `v` at the width `P.M` selects (R105, R112). -/
def AdcEffect (v : Nat) (r r' : CpuRegisters) : Prop :=
  if accIs8 r then AddEffect 8 (r.a.toNat % 256) (incremented v r % 256) r'
  else AddEffect 16 r.a.toNat (incremented v r) r'

/-- Every flag outside the list is as before. -/
def KeepsFlagsBut (fs : List Flag) (r r' : CpuRegisters) : Prop :=
  ∀ f : Flag, f ∉ fs → getFlag f r' = getFlag f r

/-- The registers that no instruction writes are as before: `X`, `Y`, `S`, `DP`, `DBR`, `PBR`
(spec/10_state.md R22, R24 to R26). -/
def KeepsInertRegs (r r' : CpuRegisters) : Prop :=
  r'.x = r.x ∧ r'.y = r.y ∧ r'.s = r.s ∧ r'.dp = r.dp ∧ r'.dbr = r.dbr ∧ r'.pbr = r.pbr

/-- Every byte of memory reads as before, and so does what is out of bounds. -/
def KeepsMemory (s t : State) : Prop := ∀ a : Nat, t.mem.getByte a = s.mem.getByte a

/-- `PC` is `len` further, modulo `2^16` (spec/40_pipeline.md R97). -/
def PcAdvances (len : Nat) (r r' : CpuRegisters) : Prop := r'.pc.toNat = (r.pc.toNat + len) % 65536

/-- The four flags ADC writes (R112). -/
def adcFlagList : List Flag := [.carry, .overflow, .negative, .zero]

/-- The whole effect of an ADC of `v` that is `len` bytes long and reports `n` cycles, frame included. -/
def AdcDone (v len n : Nat) (s t : State) : Prop :=
  AdcEffect v s.regs t.regs ∧ PcAdvances len s.regs t.regs ∧ t.out = .running (BitVec.ofNat 8 n) ∧
  KeepsFlagsBut adcFlagList s.regs t.regs ∧ KeepsInertRegs s.regs t.regs ∧ KeepsMemory s t

/-- The first of the `n` addresses from `a` on that is out of bounds is `a + k`. -/
def FirstOutOfBounds (m : Memory) (a n k : Nat) : Prop :=
  k < n ∧ m.size ≤ a + k ∧ ∀ j, j < k → a + j < m.size

/-- The bytes stand in memory from the instruction address on, byte `k` at the integer `ia + k`
(spec/30_encoding.md R65, R72). -/
def BytesAt (s : State) (bs : List Byte) : Prop :=
  ∀ (k : Nat) (b : Byte), bs[k]? = some b → s.mem.getByte ((instrAddr s.regs).toNat + k) = .ok b

/-- The opcode byte of the next step is `op`. -/
def OpcodeIs (s : State) (op : Byte) : Prop := s.mem.getByte (instrAddr s.regs).toNat = .ok op

/-- The fault record of R135, with its one code. -/
def oobFault (ph : Phase) (addr : Nat) (ia : Addr) (op : Option Byte) : Fault :=
  .outOfBounds { code := 1, phase := ph, addr := BitVec.ofNat 25 addr, ia := ia, opcode := op }

/-- The handler halts: STP or HALT (spec/43_control.md R132). -/
def Halts (op : Byte) : Prop := (opcodeTable op).handler = .stp ∨ (opcodeTable op).handler = .halt

/-- One extra cycle for a zero operand (spec/41_arithmetic.md R107, R109). -/
def extraIfZero (v : Nat) : Nat := if v = 0 then 1 else 0

/-- The whole effect of LDA of `v`, `len` bytes long and reporting `n` cycles (spec/42_load.md R120 to R124). -/
def LdaDone (v len n : Nat) (s t : State) : Prop :=
  t.regs.a.toNat = v ∧ (getFlag .zero t.regs = true ↔ v = 0) ∧
  PcAdvances len s.regs t.regs ∧ t.out = .running (BitVec.ofNat 8 n) ∧
  KeepsFlagsBut [.zero] s.regs t.regs ∧ KeepsInertRegs s.regs t.regs ∧ KeepsMemory s t

end Sys2Proof.Machine
end

