-- ==== Sys2Proof/Certificates/Slice0/Obligations.lean ====
section
/-! DEFINITION. What this model states of the machine, for the provers. Each docstring names the rules of spec/ the
statement formalises. -/

open Sys2Proof Sys2Proof.Machine

/-! ### Encoding -/

/-- R65 to R77 (tier 3; the opcode bytes are the spec's decision D1, log 10): every well-formed instruction, at every
operand, decodes from its own bytes, whatever
follows them. -/
def Obligations.EncodeThenDecodeGivesInstruction : Prop :=
  ∀ (m : Bool) (i : Instr) (rest : List Byte), i.wellFormed m = true →
    decode m (encode i ++ rest) = .ok (i, rest)

/-- R65, R75 (tier 3; opcode bytes: the spec's decision D1, log 10): what decodes is well formed and its bytes are
exactly the bytes read: each byte sequence has one
meaning and no bit of it is dropped. -/
def Obligations.DecodeThenEncodeGivesBytes : Prop :=
  ∀ (m : Bool) (bytes rest : List Byte) (i : Instr), decode m bytes = .ok (i, rest) →
    i.wellFormed m = true ∧ encode i ++ rest = bytes

/-- R67 to R71 (opcode bytes: the spec's decision D1, log 10): the operand each class reads; the Long operand has its
bank byte first. -/
def Obligations.DecodeReadsOperandByClass : Prop :=
  ∀ (b lo hi : Byte) (rest : List Byte) (m : Bool),
    decode m (0x6F :: b :: lo :: hi :: rest) = .ok (.adcLong b (hi ++ lo), rest) ∧
    decode m (0x6D :: lo :: hi :: rest) = .ok (.adcAbs (hi ++ lo), rest) ∧
    decode true (0x69 :: b :: rest) = .ok (.adcImm (.byte b), rest) ∧
    decode false (0x69 :: lo :: hi :: rest) = .ok (.adcImm (.word (hi ++ lo)), rest) ∧
    decode true (0xA9 :: b :: rest) = .ok (.ldaImm (.byte b), rest) ∧
    decode false (0xA9 :: lo :: hi :: rest) = .ok (.ldaImm (.word (hi ++ lo)), rest) ∧
    decode m (0xEA :: rest) = .ok (.nop, rest)

/-- R83: the worked decodes the spec derives (opcode bytes: decision D1, log 10). -/
def Obligations.WorkedDecodesOfTheSpec : Prop :=
  decode true [0xEA] = .ok (.nop, []) ∧
  decode true [0x69, 0x05, 0xFF] = .ok (.adcImm (.byte 0x05), [0xFF]) ∧
  decode false [0x69, 0x05, 0xFF] = .ok (.adcImm (.word 0xFF05), []) ∧
  decode true [0x6D, 0x34, 0x12] = .ok (.adcAbs 0x1234, []) ∧
  decode false [0x6F, 0x7E, 0x34, 0x12] = .ok (.adcLong 0x7E 0x1234, []) ∧
  decode true [0xA9, 0x80] = .ok (.ldaImm (.byte 0x80), []) ∧
  decode false [0x42] = .ok (.halt 0x42, []) ∧
  decode true [0x00] = .ok (.stp00, []) ∧ decode true [0xDB] = .ok (.stpDB, [])

/-- R76, R77 (the spec's decisions D1 and D21, log 10): the opcode table, entry by entry; every other byte is the
default entry. -/
def Obligations.OpcodeTableEntries : Prop :=
  opcodeTable 0x69 = ⟨.adc, .variable, .adcImm⟩ ∧ opcodeTable 0x6D = ⟨.adc, .word, .adcAbs⟩ ∧
  opcodeTable 0x6F = ⟨.adc, .long, .adcLong⟩ ∧ opcodeTable 0xA9 = ⟨.lda, .variable, .ldaImm⟩ ∧
  opcodeTable 0xEA = ⟨.nop, .none, .nop⟩ ∧ opcodeTable 0x00 = ⟨.stp, .none, .stp⟩ ∧
  opcodeTable 0xDB = ⟨.stp, .none, .stp⟩ ∧
  ∀ op : Byte, op ∉ [0x69, 0x6D, 0x6F, 0xA9, 0xEA, 0x00, 0xDB] → opcodeTable op = ⟨.halt, .none, .halt⟩

/-- R81 (the notation is the spec's decision D19, its spelling as one line of characters log 22): assembler text written
for an instruction reads back as that instruction at the same `P.M`. The byte `00` is left out because the model reads
the text `STP` as the byte `DB`, which is the model's choice (log 22): R81 gives `DB` (or `00`). -/
def Obligations.AssemblerTextReadsBack : Prop :=
  ∀ (m : Bool) (i : Instr), i.wellFormed m = true → i ≠ .stp00 → readAsm m (asm i) = some i

/-! ### The step -/

/-- R102: where the bytes at the instruction address are those of a well-formed instruction (at the current `P.M`), the
step is `exec` of that instruction and nothing is added around it. -/
def Obligations.StepRunsDecodedInstruction : Prop :=
  ∀ (s : State) (i : Instr), i.wellFormed (accIs8 s.regs) = true → BytesAt s (encode i) → step s = exec i s

/-- R97, R98, R74 (the spec's decisions D3, D4, D13; logs 12, 13, 18): the `PC` of the next state is that of the
table's class at the old `P.M`, modulo 2^16, and the old
`PC` if the handler halts; `PBR` never changes. -/
def Obligations.StepAdvancesPcByClassLength : Prop :=
  ∀ (s t : State) (op : Byte), OpcodeIs s op → step s = .next t →
    t.regs.pbr = s.regs.pbr ∧ (Halts op → t.regs.pc = s.regs.pc) ∧
    (¬ Halts op → PcAdvances (1 + (opcodeTable op).cls.operandBytes (accIs8 s.regs)) s.regs t.regs)

/-- R99, R100 (the spec's decisions D5, D6, D24; log 14; the result stands in `State.out`, log 4): a step that answers
a next state reports `Halted(3)` if its handler halts, and otherwise `Running(n)`
with `n` between 2 and 6. -/
def Obligations.StepReportsCycleCount : Prop :=
  ∀ (s t : State) (op : Byte), OpcodeIs s op → step s = .next t →
    (Halts op → t.out = .halted 3) ∧
    (¬ Halts op → ∃ n : BitVec 8, t.out = .running n ∧ 2 ≤ n.toNat ∧ n.toNat ≤ 6)

/-- R22, R24, R25, R26, R29, R56: no step changes `X`, `Y`, `S`, `DP`, `DBR`, `PBR`, the flags `P.I`, `P.D`, `P.X`,
`P.M`, or any byte of memory. -/
def Obligations.StepLeavesInertStateAndMemory : Prop :=
  ∀ s t : State, step s = .next t →
    KeepsInertRegs s.regs t.regs ∧ KeepsFlagsBut adcFlagList s.regs t.regs ∧ t.mem = s.mem ∧ KeepsMemory s t

/-- R21, R29: only ADC writes `P.C`, `P.V` and `P.N`; only ADC and LDA write `A` and `P.Z`. -/
def Obligations.OnlyAdcAndLdaWriteAccumulatorAndFlags : Prop :=
  ∀ (s t : State) (op : Byte), OpcodeIs s op → step s = .next t →
    ((opcodeTable op).tag ≠ .adc → KeepsFlagsBut [.zero] s.regs t.regs) ∧
    ((opcodeTable op).tag ≠ .adc → (opcodeTable op).tag ≠ .lda → t.regs.a = s.regs.a ∧ t.regs.p = s.regs.p)

/-- R101 (the spec's decision D20, log 13): stepping again after a `Halted` result halts again with 3 and changes no
state. -/
def Obligations.StepAfterHaltHaltsAgain : Prop :=
  ∀ (s t : State) (n : BitVec 8), step s = .next t → t.out = .halted n → n = 3 ∧ t.regs = s.regs ∧ step t = .next t

/-- R22, R26, R36 (tier 3, noninterference; the recorded output is the model's own field, log 4): a step never reads
`X`, `Y`, `S`, `DP` or the output of the step before:
with other values there it does the same, and carries those values through. -/
def Obligations.InertRegistersAreNeverRead : Prop :=
  ∀ (s : State) (x y sp dp : Word) (o : StepOutput),
    (∀ t, step s = .next t →
      step { s with regs := { s.regs with x := x, y := y, s := sp, dp := dp }, out := o } =
        .next { t with regs := { t.regs with x := x, y := y, s := sp, dp := dp } }) ∧
    (∀ f, step s = .fault f →
      step { s with regs := { s.regs with x := x, y := y, s := sp, dp := dp }, out := o } = .fault f)

/-- R29, R31, R34, R115 (tier 3, noninterference; the spec's decisions D9, D14, D22; log 17): a step never reads
`P.I`, `P.D` or `P.X`: whatever they hold, it does
the same and carries them through. In particular ADC is binary whatever `P.D` holds. -/
def Obligations.IrqDecimalIndexFlagsAreNeverRead : Prop :=
  ∀ (s : State) (f : Flag) (v : Bool), f ∈ [Flag.irqDisable, .decimal, .indexSize] →
    (∀ t, step s = .next t →
      step { s with regs := { s.regs with p := withFlag s.regs.p f v } } =
        .next { t with regs := { t.regs with p := withFlag t.regs.p f v } }) ∧
    (∀ e, step s = .fault e → step { s with regs := { s.regs with p := withFlag s.regs.p f v } } = .fault e)

/-- R137: an opcode other than ADC absolute and ADC long completes whenever its operand bytes are in bounds. -/
def Obligations.StepCompletesWithoutDataRead : Prop :=
  ∀ (s : State) (op : Byte), OpcodeIs s op → op ≠ 0x6D → op ≠ 0x6F →
    (instrAddr s.regs).toNat + (opcodeTable op).cls.operandBytes (accIs8 s.regs) < s.mem.size →
    ∃ t, step s = .next t

/-- R75, R79, R141: no step is refused; every opcode byte has a meaning. -/
def Obligations.StepIsNeverRefused : Prop := ∀ (s : State) (r : Refusal), step s ≠ .refused r

/-- R97 with R125 (the spec's decision D13, log 18): NOP at offset 0xFFFF leaves `PC = 0x0000` in the same bank. -/
def Obligations.NopAtBankEndWrapsInsideBank : Prop :=
  ∀ s : State, s.regs.pc = 0xFFFF → OpcodeIs s 0xEA →
    ∃ t, step s = .next t ∧ t.regs.pc = 0x0000 ∧ t.regs.pbr = s.regs.pbr ∧ t.out = .running 2

/-! ### The one exception -/

/-- R87 with the record of R135 (code, `ia`, absent opcode: the spec's decision D15, log 19): an opcode fetch out of
bounds
is the fault of phase OPCODE at `ia`, with no opcode. That no state changes is the fault outcome's form (log 6). -/
def Obligations.OpcodeFetchOutOfBoundsFaults : Prop :=
  ∀ s : State, s.mem.size ≤ (instrAddr s.regs).toNat →
    step s = .fault (oobFault .opcode (instrAddr s.regs).toNat (instrAddr s.regs) none)

/-- R92 with the record of R135 (the spec's decision D15, log 19) and the integer addresses in increasing order of R72
(decisions D13 and D16, logs 18, 19): the first operand byte out of bounds is the fault of phase OPERAND at that
address. That no state changes is the fault outcome's form (log 6). -/
def Obligations.OperandFetchOutOfBoundsFaults : Prop :=
  ∀ (s : State) (op : Byte) (k : Nat), OpcodeIs s op →
    FirstOutOfBounds s.mem ((instrAddr s.regs).toNat + 1) ((opcodeTable op).cls.operandBytes (accIs8 s.regs)) k →
    step s = .fault (oobFault .operand ((instrAddr s.regs).toNat + 1 + k) (instrAddr s.regs) (some op))

/-- R135, R137, R141 (the record is the spec's decision D15, log 19): every fault of a step is OutOfBounds with code 1
at an address that is not in the memory image; its
record holds the step's instruction address; it names no opcode exactly in phase OPCODE; phase DATA belongs to ADC
absolute and ADC long; phase OPERAND to an entry that has operand bytes. -/
def Obligations.EveryFaultIsOutOfBounds : Prop :=
  ∀ (s : State) (f : Fault), step s = .fault f →
    ∃ info, f = .outOfBounds info ∧ info.code = 1 ∧ info.ia = instrAddr s.regs ∧ s.mem.size ≤ info.addr.toNat ∧
      (info.opcode = none ↔ info.phase = .opcode) ∧ (∀ op, info.opcode = some op → OpcodeIs s op) ∧
      (info.phase = .data → info.opcode = some 0x6D ∨ info.opcode = some 0x6F) ∧
      (info.phase = .operand → ∃ op, info.opcode = some op ∧ (opcodeTable op).cls ≠ .none)

/-! ### ADC -/

/-- R105, R112 (no decimal mode: the spec's decision D9, log 17): what `adc_core(v)` writes, in exact numbers, and
that it writes no other flag and no other register. -/
def Obligations.AdcCoreSumAndFlags : Prop :=
  ∀ (v : Word) (r : CpuRegisters), AdcEffect v.toNat r (adcCore v r) ∧ KeepsFlagsBut adcFlagList r (adcCore v r) ∧
    KeepsInertRegs r (adcCore v r) ∧ (adcCore v r).pc = r.pc

/-- R106: carry-in on an all-ones operand leaves `A` unchanged and clears `P.C`, in both modes (in 8-bit mode for a
state
that satisfies INV-M). -/
def Obligations.AdcCarryInOnAllOnesKeepsAccumulator : Prop :=
  (∀ r : CpuRegisters, InvM r → accIs8 r = true → getFlag .carry r = true →
    (adcCore 0x00FF r).a = r.a ∧ getFlag .carry (adcCore 0x00FF r) = false) ∧
  (∀ r : CpuRegisters, accIs8 r = false → getFlag .carry r = true →
    (adcCore 0xFFFF r).a = r.a ∧ getFlag .carry (adcCore 0xFFFF r) = false)

/-- R106: in 8-bit mode ADC uses only the low byte of its operand. -/
def Obligations.AdcIn8BitModeIgnoresHighByte : Prop :=
  ∀ (v v' : Word) (r : CpuRegisters), accIs8 r = true → v.toNat % 256 = v'.toNat % 256 → adcCore v r = adcCore v' r

/-- R107, R108 (opcode byte D1, zero test D7; logs 10, 14): ADC immediate completes in every state, with its sum,
flags, length, cycles and frame. -/
def Obligations.AdcImmediateCompletes : Prop :=
  (∀ (b : Byte) (s : State), accIs8 s.regs = true →
    ∃ t, exec (.adcImm (.byte b)) s = .next t ∧ AdcDone b.toNat 2 (2 + extraIfZero b.toNat) s t ∧
      (BytesAt s [0x69, b] → step s = .next t)) ∧
  (∀ (lo hi : Byte) (s : State), accIs8 s.regs = false →
    ∃ t, exec (.adcImm (.word (hi ++ lo))) s = .next t ∧
      AdcDone (lo.toNat + 256 * hi.toNat) 3 (3 + extraIfZero (lo.toNat + 256 * hi.toNat)) s t ∧
      (BytesAt s [0x69, lo, hi] → step s = .next t))

/-- R109, R110 (opcode byte D1, read width D8; logs 10, 15): ADC absolute completes where its data byte (8-bit mode)
or both data bytes (16-bit mode) at
`compose(DBR, operand)` are in bounds, and is 3 bytes long. -/
def Obligations.AdcAbsoluteCompletes : Prop :=
  (∀ (lo hi v : Byte) (s : State), accIs8 s.regs = true →
    s.mem.getByte (s.regs.dbr.toNat * 65536 + (lo.toNat + 256 * hi.toNat)) = .ok v →
    ∃ t, exec (.adcAbs (hi ++ lo)) s = .next t ∧ AdcDone v.toNat 3 (4 + extraIfZero v.toNat) s t ∧
      (BytesAt s [0x6D, lo, hi] → step s = .next t)) ∧
  (∀ (lo hi v w : Byte) (s : State), accIs8 s.regs = false →
    s.mem.getByte (s.regs.dbr.toNat * 65536 + (lo.toNat + 256 * hi.toNat)) = .ok v →
    s.mem.getByte (s.regs.dbr.toNat * 65536 + (lo.toNat + 256 * hi.toNat) + 1) = .ok w →
    ∃ t, exec (.adcAbs (hi ++ lo)) s = .next t ∧
      AdcDone (v.toNat + 256 * w.toNat) 3 (4 + extraIfZero (v.toNat + 256 * w.toNat)) s t ∧
      (BytesAt s [0x6D, lo, hi] → step s = .next t))

/-- R109, R96, R135 (D8, D15; logs 15, 19): ADC absolute faults in phase DATA at the first data byte out of bounds. -/
def Obligations.AdcAbsoluteDataOutOfBoundsFaults : Prop :=
  ∀ (addr : Word) (s : State) (k : Nat),
    FirstOutOfBounds s.mem (s.regs.dbr.toNat * 65536 + addr.toNat) (if accIs8 s.regs then 1 else 2) k →
    exec (.adcAbs addr) s =
      .fault (oobFault .data (s.regs.dbr.toNat * 65536 + addr.toNat + k) (instrAddr s.regs) (some 0x6D))

/-- R111 (opcode byte D1, read width D8; logs 10, 15): ADC absolute long completes where its data byte or bytes at
`compose(bank, operand)` are in bounds, whatever
`DBR` holds, and is 4 bytes long with the bank byte first. -/
def Obligations.AdcLongCompletes : Prop :=
  (∀ (bank lo hi v : Byte) (s : State), accIs8 s.regs = true →
    s.mem.getByte (bank.toNat * 65536 + (lo.toNat + 256 * hi.toNat)) = .ok v →
    ∃ t, exec (.adcLong bank (hi ++ lo)) s = .next t ∧ AdcDone v.toNat 4 (5 + extraIfZero v.toNat) s t ∧
      (BytesAt s [0x6F, bank, lo, hi] → step s = .next t)) ∧
  (∀ (bank lo hi v w : Byte) (s : State), accIs8 s.regs = false →
    s.mem.getByte (bank.toNat * 65536 + (lo.toNat + 256 * hi.toNat)) = .ok v →
    s.mem.getByte (bank.toNat * 65536 + (lo.toNat + 256 * hi.toNat) + 1) = .ok w →
    ∃ t, exec (.adcLong bank (hi ++ lo)) s = .next t ∧
      AdcDone (v.toNat + 256 * w.toNat) 4 (5 + extraIfZero (v.toNat + 256 * w.toNat)) s t ∧
      (BytesAt s [0x6F, bank, lo, hi] → step s = .next t))

/-- R111, R96, R135 (D8, D15; logs 15, 19): ADC absolute long faults in phase DATA at the first data byte out of
bounds. -/
def Obligations.AdcLongDataOutOfBoundsFaults : Prop :=
  ∀ (bank : Byte) (addr : Word) (s : State) (k : Nat),
    FirstOutOfBounds s.mem (bank.toNat * 65536 + addr.toNat) (if accIs8 s.regs then 1 else 2) k →
    exec (.adcLong bank addr) s =
      .fault (oobFault .data (bank.toNat * 65536 + addr.toNat + k) (instrAddr s.regs) (some 0x6F))

/-! ### LDA, NOP, STP, HALT -/

/-- R120, R121, R122, R124 (opcode byte D1, cycles D6, Negative D10; logs 10, 14, 16): LDA immediate completes in
every state; it writes `A` and `P.Z` only. -/
def Obligations.LdaImmediateCompletes : Prop :=
  (∀ (b : Byte) (s : State), accIs8 s.regs = true →
    ∃ t, exec (.ldaImm (.byte b)) s = .next t ∧ LdaDone b.toNat 2 2 s t ∧ (BytesAt s [0xA9, b] → step s = .next t)) ∧
  (∀ (lo hi : Byte) (s : State), accIs8 s.regs = false →
    ∃ t, exec (.ldaImm (.word (hi ++ lo))) s = .next t ∧ LdaDone (lo.toNat + 256 * hi.toNat) 3 3 s t ∧
      (BytesAt s [0xA9, lo, hi] → step s = .next t))

/-- R125, R126: NOP changes `PC` only, by exactly 1, and reports 2 cycles. -/
def Obligations.NopCompletes : Prop :=
  ∀ s : State, ∃ t, exec .nop s = .next t ∧ PcAdvances 1 s.regs t.regs ∧
    t.regs = { s.regs with pc := t.regs.pc } ∧ KeepsMemory s t ∧ t.out = .running 2 ∧
    (BytesAt s [0xEA] → step s = .next t)

/-- R127, R128 (the byte DB is decision D1, the PC and the count D4, D5; logs 10, 13, 14): STP, at either byte, halts
with 3 and changes no register and no memory. -/
def Obligations.StpCompletes : Prop :=
  ∀ s : State, ∃ t, exec .stp00 s = .next t ∧ exec .stpDB s = .next t ∧ t.regs = s.regs ∧ KeepsMemory s t ∧
    t.out = .halted 3 ∧ (BytesAt s [0x00] ∨ BytesAt s [0xDB] → step s = .next t)

/-- R130 to R132 (decisions D5, D21; logs 10, 14): every byte outside the seven implemented ones halts like STP,
reading no operand byte. -/
def Obligations.HaltCompletes : Prop :=
  ∀ (op : Byte) (s : State), op ∉ [0x00, 0x69, 0x6D, 0x6F, 0xA9, 0xDB, 0xEA] →
    ∃ t, exec (.halt op) s = .next t ∧ exec .stpDB s = .next t ∧ t.regs = s.regs ∧ KeepsMemory s t ∧
      t.out = .halted 3 ∧ (OpcodeIs s op → step s = .next t)

/-! ### Status register and register port -/

/-- R30: `set_flag` writes exactly its bit to 1 and truncates `A` for AccSize only, `clear_flag` writes exactly its
bit to
0 and leaves `A`, `get_flag` returns the bit; no other register changes. -/
def Obligations.FlagOperationsSetClearGet : Prop :=
  ∀ (f g : Flag) (r : CpuRegisters),
    getFlag f r = r.p.getLsbD f.bit ∧
    getFlag g (setFlag f r) = (decide (g = f) || getFlag g r) ∧
    getFlag g (clearFlag f r) = (!decide (g = f) && getFlag g r) ∧
    (setFlag f r).a.toNat = (if f = .accSize then r.a.toNat % 256 else r.a.toNat) ∧ (clearFlag f r).a = r.a ∧
    (InvM r → accIs8 r = true → setFlag .accSize r = r) ∧
    KeepsInertRegs r (setFlag f r) ∧ KeepsInertRegs r (clearFlag f r) ∧
    (setFlag f r).pc = r.pc ∧ (clearFlag f r).pc = r.pc

/-- R38, R27 (the port is the spec's decision D18, log 20; the bit places, written out as the eight numbers of R27,
are D2,
log 11): a write of `P` through the register port stores the byte, each flag reads the bit of its own number, and `A` is
truncated iff bit 5 of the value is set. -/
def Obligations.PortWriteOfStatusRegister : Prop :=
  ∀ (v : Nat) (r : CpuRegisters),
    (writeReg .P v r).p.toNat = v % 256 ∧
    getFlag .carry (writeReg .P v r) = v.testBit 0 ∧ getFlag .zero (writeReg .P v r) = v.testBit 1 ∧
    getFlag .irqDisable (writeReg .P v r) = v.testBit 2 ∧ getFlag .decimal (writeReg .P v r) = v.testBit 3 ∧
    getFlag .indexSize (writeReg .P v r) = v.testBit 4 ∧ getFlag .accSize (writeReg .P v r) = v.testBit 5 ∧
    getFlag .overflow (writeReg .P v r) = v.testBit 6 ∧ getFlag .negative (writeReg .P v r) = v.testBit 7 ∧
    (writeReg .P v r).a.toNat = (if v.testBit 5 then r.a.toNat % 256 else r.a.toNat) ∧
    KeepsInertRegs r (writeReg .P v r) ∧ (writeReg .P v r).pc = r.pc

/-- R38 (the port is the spec's decision D18, log 20): a register written through the port reads back modulo its width
(`A` in 8-bit mode: modulo 2^8), and no other
register changes. -/
def Obligations.PortReadAfterWrite : Prop :=
  ∀ (n n' : RegName) (v : Nat) (r : CpuRegisters), n ≠ .P →
    readReg n (writeReg n v r) =
      (if n = .DBR ∨ n = .PBR ∨ (n = .A ∧ accIs8 r = true) then v % 256 else v % 65536) ∧
    (n' ≠ n → readReg n' (writeReg n v r) = readReg n' r)

/-! ### Memory -/

/-- R46: `compose(bank, offset)` is `(bank << 16) | offset`, which is `bank * 2^16 + offset`, always below 2^24. -/
def Obligations.ComposeIsBankTimes64K : Prop :=
  ∀ (bank : Byte) (offset : Word),
    (compose bank offset).toNat = (bank.toNat <<< 16 ||| offset.toNat) ∧
    (compose bank offset).toNat = bank.toNat * 65536 + offset.toNat ∧ (compose bank offset).toNat ≤ 0xFFFFFF

/-- R48, R49, R50, R54 (the second byte's address is D13, the check order D16; logs 18, 19): a byte read answers in
bounds and names the address out of bounds; a word read is the two byte
reads, little-endian, the low byte checked first, with no wrap. -/
def Obligations.ByteAndWordReads : Prop :=
  ∀ (m : Memory) (a : Nat),
    (a < m.size → ∃ b, m.getByte a = .ok b) ∧ (m.size ≤ a → m.getByte a = .error a ∧ m.getWord a = .error a) ∧
    (a < m.size → m.size ≤ a + 1 → m.getWord a = .error (a + 1)) ∧
    (∀ lo hi, m.getByte a = .ok lo → m.getByte (a + 1) = .ok hi → m.getWord a = .ok (hi ++ lo))

/-- R52, R61 (the spec's decisions D16, D17; log 20), on memories in the model's canonical form (log 3): a byte write in
bounds is read back, and every other address reads as before; out of bounds it fails in phase DATA. -/
def Obligations.WrittenByteIsReadBack : Prop :=
  ∀ (m : Memory) (a : Nat) (v : Byte), m.wf = true →
    (m.size ≤ a → m.write1 a v = .error ⟨.data, a⟩) ∧
    (a < m.size → ∃ m', m.write1 a v = .ok m' ∧ m'.getByte a = .ok v ∧ ∀ b, b ≠ a → m'.getByte b = m.getByte b)

/-- R52 (the spec's decision D16, log 20), on memories in the model's canonical form (log 3): a word write stores both
bytes little-endian or, with either address out of bounds, neither. -/
def Obligations.WrittenWordIsReadBack : Prop :=
  ∀ (m : Memory) (a : Nat) (v : Word), m.wf = true →
    (∀ k, FirstOutOfBounds m a 2 k → m.write2 a v = .error ⟨.data, a + k⟩) ∧
    (a + 1 < m.size → ∃ m', m.write2 a v = .ok m' ∧ m'.getWord a = .ok v ∧
      ∀ b, b ≠ a → b ≠ a + 1 → m'.getByte b = m.getByte b)

/-- The model's own representation (log 3), no rule of the spec: memory is canonical data, two well-formed memories
that read alike at every address are equal. -/
def Obligations.EqualReadsMakeEqualMemories : Prop :=
  ∀ m m' : Memory, m.wf = true → m'.wf = true → (∀ a, m.getByte a = m'.getByte a) → m = m'

/-- R48, on a memory loaded from any image of a legal size (R7, R45, R158): `get_byte` returns the image's byte in
bounds
and names the address out of bounds; the memory has the image's length. That it is canonical is a clause about the
model's own representation (log 3), no rule of the spec. -/
def Obligations.LoadedImageIsRead : Prop :=
  ∀ (image : List Byte), 1 ≤ image.length → image.length ≤ Config.addressSpace →
    (Memory.ofImage image).wf = true ∧ (Memory.ofImage image).size = image.length ∧
    ∀ a : Nat, (∀ b : Byte, image[a]? = some b → (Memory.ofImage image).getByte a = .ok b) ∧
      (image.length ≤ a → (Memory.ofImage image).getByte a = .error a)

/-- R63 (the spec's decision D17, log 21), on memories in the model's canonical form (log 3): a byte the host stores
at the
instruction address is the byte the next step fetches. -/
def Obligations.HostStoreIsFetchedByNextStep : Prop :=
  ∀ (s t : State) (b : Byte), s.mem.wf = true →
    (HostAction.storeByte (instrAddr s.regs).toNat b).apply s = .ok t →
    OpcodeIs t b ∧ (Halts b → step t = .next { t with out := .halted 3 }) ∧ (b = 0xEA → step t = exec .nop t)

/-! ### Reset and runs -/

/-- R35, R155 (the six parameters are open, decision D11): what reset leaves, for all values of the six parameters;
memory is untouched. -/
def Obligations.ResetSetsDocumentedRegisters : Prop :=
  ∀ (rp : ResetParams) (s : State),
    (resetCore rp s).regs =
      { a := rp.a, x := rp.x, y := rp.y, s := rp.s, dbr := rp.dbr, pbr := 0x80, dp := rp.dp, pc := 0x8000, p := 0x00 } ∧
    (resetCore rp s).mem = s.mem ∧ ∀ f, getFlag f (resetCore rp s).regs = false

/-- R156, R158 (the spec's decision D26): the first step after reset fetches at 0x808000; with an image that does not
reach it, it faults there. -/
def Obligations.FirstStepAfterResetFetchesEntryPoint : Prop :=
  ∀ (rp : ResetParams) (s : State),
    (s.mem.size ≤ 0x808000 → step (resetCore rp s) = .fault (oobFault .opcode 0x808000 0x808000 none)) ∧
    (s.mem.getByte 0x808000 = .ok 0xEA →
      ∃ t, step (resetCore rp s) = .next t ∧ t.regs.pc = 0x8001 ∧ t.regs.pbr = 0x80 ∧ t.out = .running 2)

/-- The bound on a run and the added-up count are the model's choice (log 23): R104 (the spec's decision D20) has
neither.
A longer bound never changes how a run ended, and, as R104 says, the end is the end of its last step: a halted run's
final state halts again and stays, a faulted run's final state is the one whose step faults. -/
def Obligations.RunEndIsFinal : Prop :=
  ∀ (fuel more cycles n : Nat) (s t : State),
    (runFrom fuel cycles s = .halted t n → runFrom (fuel + more) cycles s = .halted t n ∧ step t = .next t) ∧
    (∀ f, runFrom fuel cycles s = .faulted t f n →
      runFrom (fuel + more) cycles s = .faulted t f n ∧ step t = .fault f)

/-! ### The invariant -/

/-- R32, R35 (and the model's choices of logs 1 to 3 for `State.reset`): the reset state satisfies the invariant, at
every value of the parameters. -/
def Obligations.ResetSatisfiesInvariant : Prop :=
  Inv State.reset ∧ ∀ (rp : ResetParams) (s : State), s.mem.wf = true → Inv (resetCore rp s)

/-- R32 (tier 3; the canonical form is the model's own, log 3): INV-M and the memory's canonical form are kept by
every step from every state that has them. -/
def Obligations.EveryStepKeepsInvariant : Prop :=
  ∀ s t : State, Inv s → step s = .next t → Inv t

/-- R32, R38, R52 (the register port is the spec's decision D18 and the memory writes D16, log 20; the canonical form of
memory is the model's own choice, log 3): every host action between steps keeps INV-M and the canonical form. -/
def Obligations.EveryHostActionKeepsInvariant : Prop :=
  ∀ (a : HostAction) (s t : State), Inv s → a.apply s = .ok t → Inv t

/-- R32 (the host actions rest on the spec's decisions D18 and D16, log 20; the canonical form of memory is the
model's own
choice, log 3): every state that any boot, steps and host actions reach satisfies INV-M, and its memory is canonical. -/
def Obligations.ReachableStatesSatisfyInvariant : Prop :=
  ∀ s : State, Reachable s → Inv s
end

