-- ==== Sys2Proof/Laws/Decode.lean ====
section
/-! SUPPORT. Byte order, the opcode table's entries, and what the decoder can answer
(spec/30_encoding.md R65 to R77). -/

namespace Sys2Proof

/-! ### Byte order -/

/-- A word is its two bytes, the high byte in the more significant place (R8, R53). -/
theorem wordOf_eq_append (lo hi : Byte) : wordOf lo hi = hi ++ lo := by
  apply BitVec.eq_of_getLsbD_eq
  intro i hi'
  simp only [wordOf, BitVec.getLsbD_or, BitVec.getLsbD_setWidth, BitVec.getLsbD_shiftLeft, BitVec.getLsbD_append, hi',
    decide_true, Bool.true_and]
  by_cases h : i < 8
  · simp [h]
  · simp [h, BitVec.getLsbD_of_ge lo i (by omega)]
    omega

theorem getLsbD_word (lo hi : Byte) (i : Nat) :
    (hi ++ lo : Word).getLsbD i = if i < 8 then lo.getLsbD i else hi.getLsbD (i - 8) :=
  BitVec.getLsbD_append

@[simp] theorem loByte_append (lo hi : Byte) : loByte (hi ++ lo) = lo := by
  apply BitVec.eq_of_getLsbD_eq
  intro i h
  simp [loByte, getLsbD_word, h]

@[simp] theorem hiByte_append (lo hi : Byte) : hiByte (hi ++ lo) = hi := by
  apply BitVec.eq_of_getLsbD_eq
  intro i h
  simp [hiByte, getLsbD_word, h]

@[simp] theorem loByte_wordOf (lo hi : Byte) : loByte (wordOf lo hi) = lo := by
  rw [wordOf_eq_append, loByte_append]

@[simp] theorem hiByte_wordOf (lo hi : Byte) : hiByte (wordOf lo hi) = hi := by
  rw [wordOf_eq_append, hiByte_append]

@[simp] theorem wordOf_loByte_hiByte (w : Word) : wordOf (loByte w) (hiByte w) = w := by
  rw [wordOf_eq_append]
  apply BitVec.eq_of_getLsbD_eq
  intro i hi
  rw [BitVec.getLsbD_append]
  by_cases h : i < 8
  · simp [loByte, h]
  · have h' : i - 8 < 8 := by omega
    simp [hiByte, h, h', show 8 + (i - 8) = i by omega]

theorem loByte_toNat (w : Word) : (loByte w).toNat = w.toNat % 256 := by
  simp [loByte, BitVec.extractLsb'_toNat]

theorem append_toNat (lo hi : Byte) : (hi ++ lo : Word).toNat = lo.toNat + 256 * hi.toNat := by
  have hl := lo.isLt
  rw [show (hi ++ lo : Word).toNat = hi.toNat <<< 8 ||| lo.toNat from BitVec.toNat_append hi lo, Nat.shiftLeft_eq,
    Nat.mul_comm, ← Nat.two_pow_add_eq_or_of_lt hl]
  omega

theorem zext16_toNat (b : Byte) : (zext16 b).toNat = b.toNat := by
  have := b.isLt
  simp [zext16]
  omega

/-! ### The opcode table -/

theorem opcodeTable_halt {op : Byte} (h : implementedOpcodes.contains op = false) :
    opcodeTable op = { tag := .halt, cls := .none, handler := .halt } := by
  simp only [implementedOpcodes, List.contains_cons, List.contains_nil, Bool.or_false, Bool.or_eq_false_iff,
    beq_eq_false_iff_ne] at h
  obtain ⟨h1, h2, h3, h4, h5, h6, h7⟩ := h
  rw [opcodeTable, if_neg h2, if_neg h3, if_neg h4, if_neg h5, if_neg h7, if_neg h1, if_neg h6]

/-- The seven implemented bytes, or the default entry (R76, R77). -/
theorem opcode_cases (op : Byte) :
    op = 0x69 ∨ op = 0x6D ∨ op = 0x6F ∨ op = 0xA9 ∨ op = 0xEA ∨ op = 0x00 ∨ op = 0xDB ∨
      (implementedOpcodes.contains op = false ∧ opcodeTable op = { tag := .halt, cls := .none, handler := .halt }) := by
  by_cases h : implementedOpcodes.contains op = true
  · simp only [implementedOpcodes, List.contains_cons, List.contains_nil, Bool.or_false, Bool.or_eq_true,
      beq_iff_eq] at h
    tauto
  · have h' : implementedOpcodes.contains op = false := by simpa using h
    exact .inr (.inr (.inr (.inr (.inr (.inr (.inr ⟨h', opcodeTable_halt h'⟩))))))

/-- The table's entry of an instruction's own opcode byte has the instruction's operand byte count (R66, R74). -/
theorem operandBytes_of_wellFormed {m : Bool} {i : Instr} (h : i.wellFormed m = true) :
    (opcodeTable i.opcode).cls.operandBytes m = i.nbytes := by
  cases i with
  | adcImm imm => cases imm <;> cases m <;> first | rfl | cases h
  | ldaImm imm => cases imm <;> cases m <;> first | rfl | cases h
  | halt op =>
    have h' : implementedOpcodes.contains op = false := by
      simpa only [Instr.wellFormed, Bool.not_eq_true'] using h
    simp [Instr.opcode, opcodeTable_halt h', WidthClass.operandBytes, Instr.nbytes]
  | _ => rfl

/-! ### What a reader's answers make of the decoder's -/

section
variable {ε : Type} {m : Bool} {op : Byte} {rd : Nat → Except ε Byte}

theorem except_bind_ok {α β : Type} {x : Except ε α} {f : α → Except ε β} {b : β} (h : (x >>= f) = .ok b) :
    ∃ a, x = .ok a ∧ f a = .ok b := by
  cases x with
  | error e => cases h
  | ok a => exact ⟨a, rfl, h⟩

theorem except_bind_error {α β : Type} {x : Except ε α} {f : α → Except ε β} {e : ε} (h : (x >>= f) = .error e) :
    x = .error e ∨ ∃ a, x = .ok a ∧ f a = .error e := by
  cases x with
  | error e' => cases h; exact .inl rfl
  | ok a => exact .inr ⟨a, rfl, h⟩

theorem resolveWordAt_ok {k : Nat} {w : Word} :
    resolveWordAt rd k = .ok w ↔ rd k = .ok (loByte w) ∧ rd (k + 1) = .ok (hiByte w) := by
  constructor
  · intro h
    obtain ⟨lo, h1, h⟩ := except_bind_ok h
    obtain ⟨hi, h2, h⟩ := except_bind_ok h
    cases h
    simp [h1, h2]
  · rintro ⟨h1, h2⟩
    have : resolveWordAt rd k = .ok (wordOf (loByte w) (hiByte w)) := by
      simp only [resolveWordAt, h1, h2]
      rfl
    rw [this, wordOf_loByte_hiByte]

theorem resolveWordAt_error {k : Nat} {e : ε} (h : resolveWordAt rd k = .error e) :
    rd k = .error e ∨ (∃ b, rd k = .ok b) ∧ rd (k + 1) = .error e := by
  obtain h | ⟨lo, h1, h⟩ := except_bind_error h
  · exact .inl h
  · obtain h | ⟨hi, -, h⟩ := except_bind_error h
    · exact .inr ⟨⟨lo, h1⟩, h⟩
    · cases h

theorem resolveVariable_ok {imm : Imm} :
    resolveVariable m rd = .ok imm ↔
      imm.fits m = true ∧ ∀ (k : Nat) (b : Byte), imm.bytes[k]? = some b → rd (k + 1) = .ok b := by
  cases m
  · constructor
    · intro h
      obtain ⟨w, h1, h⟩ := except_bind_ok (ε := ε) (f := fun w => pure (Imm.word w)) h
      cases h
      obtain ⟨hlo, hhi⟩ := resolveWordAt_ok.mp h1
      refine ⟨rfl, ?_⟩
      rintro (_ | _ | k) b hb <;> simp [Imm.bytes] at hb
      · rw [← hb]; exact hlo
      · rw [← hb]; exact hhi
    · rintro ⟨hf, hb⟩
      cases imm with
      | byte b => cases hf
      | word w =>
        have hw : resolveWordAt rd 1 = .ok w := resolveWordAt_ok.mpr ⟨hb 0 _ rfl, hb 1 _ rfl⟩
        simp only [resolveVariable, Bool.false_eq_true, if_false, hw]
        rfl
  · constructor
    · intro h
      obtain ⟨b, h1, h⟩ := except_bind_ok (ε := ε) (f := fun b => pure (Imm.byte b)) h
      cases h
      refine ⟨rfl, ?_⟩
      rintro (_ | k) b' hb <;> simp [Imm.bytes] at hb
      rw [← hb]; exact h1
    · rintro ⟨hf, hb⟩
      cases imm with
      | word w => cases hf
      | byte b =>
        have hw : resolveByte rd = .ok b := hb 0 _ rfl
        simp only [resolveVariable, if_true, hw]
        rfl

/-- The decoder answers an instruction exactly when that instruction is well formed at the mode, its opcode byte is the
one decoded, and the reader answers its operand bytes in order (R65, R75, R91). -/
theorem decodeOp_ok {i : Instr} :
    decodeOp m op rd = .ok i ↔
      i.opcode = op ∧ i.wellFormed m = true ∧
        ∀ (k : Nat) (b : Byte), i.operandBytes[k]? = some b → rd (k + 1) = .ok b := by
  constructor
  · intro h
    obtain rfl | rfl | rfl | rfl | rfl | rfl | rfl | ⟨hop, htab⟩ := opcode_cases op
    · obtain ⟨imm, h1, h⟩ := except_bind_ok (f := fun imm => pure (Instr.adcImm imm)) h
      cases h
      exact ⟨rfl, resolveVariable_ok.mp h1⟩
    · obtain ⟨w, h1, h⟩ := except_bind_ok (f := fun w => pure (Instr.adcAbs w)) h
      cases h
      obtain ⟨hlo, hhi⟩ := resolveWordAt_ok.mp h1
      refine ⟨rfl, rfl, ?_⟩
      rintro (_ | _ | k) b hb <;> simp [Instr.operandBytes] at hb
      · rw [← hb]; exact hlo
      · rw [← hb]; exact hhi
    · obtain ⟨o, h1, h⟩ := except_bind_ok (f := fun o : Byte × Word => pure (Instr.adcLong o.1 o.2)) h
      cases h
      obtain ⟨bank, hb1, h1⟩ := except_bind_ok h1
      obtain ⟨w, hw, h2⟩ := except_bind_ok h1
      cases h2
      obtain ⟨hlo, hhi⟩ := resolveWordAt_ok.mp hw
      refine ⟨rfl, rfl, ?_⟩
      rintro (_ | _ | _ | k) b hb <;> simp [Instr.operandBytes] at hb
      · rw [← hb]; exact hb1
      · rw [← hb]; exact hlo
      · rw [← hb]; exact hhi
    · obtain ⟨imm, h1, h⟩ := except_bind_ok (f := fun imm => pure (Instr.ldaImm imm)) h
      cases h
      exact ⟨rfl, resolveVariable_ok.mp h1⟩
    · cases h; exact ⟨rfl, rfl, by simp [Instr.operandBytes]⟩
    · cases h; exact ⟨rfl, rfl, by simp [Instr.operandBytes, stpOfOpcode]⟩
    · cases h; exact ⟨rfl, rfl, by simp [Instr.operandBytes, stpOfOpcode]⟩
    · simp only [decodeOp, htab, Except.ok.injEq] at h
      subst h
      exact ⟨rfl, by simp only [Instr.wellFormed, hop]; rfl, by simp [Instr.operandBytes]⟩
  · rintro ⟨rfl, hwf, hb⟩
    cases i with
    | adcImm imm =>
      have h1 := resolveVariable_ok.mpr ⟨hwf, hb⟩
      change (resolveVariable m rd >>= _) = _
      rw [h1]; rfl
    | ldaImm imm =>
      have h1 := resolveVariable_ok.mpr ⟨hwf, hb⟩
      change (resolveVariable m rd >>= _) = _
      rw [h1]; rfl
    | adcAbs w =>
      have h1 : resolveWordAt rd 1 = .ok w := resolveWordAt_ok.mpr ⟨hb 0 _ rfl, hb 1 _ rfl⟩
      change (resolveWordAt rd 1 >>= _) = _
      rw [h1]; rfl
    | adcLong bank w =>
      have h0 : rd 1 = .ok bank := hb 0 _ rfl
      have h1 : resolveWordAt rd 2 = .ok w := resolveWordAt_ok.mpr ⟨hb 1 _ rfl, hb 2 _ rfl⟩
      change ((rd 1 >>= fun bank => resolveWordAt rd 2 >>= fun addr => pure (bank, addr)) >>= _) = _
      rw [h0]
      change ((resolveWordAt rd 2 >>= fun addr => pure (bank, addr)) >>= _) = _
      rw [h1]; rfl
    | nop => rfl
    | stp00 => rfl
    | stpDB => rfl
    | halt op =>
      have h' : implementedOpcodes.contains op = false := by
        simpa only [Instr.wellFormed, Bool.not_eq_true'] using hwf
      simp [decodeOp, Instr.opcode, opcodeTable_halt h']

/-- Where the decoder fails, the reader failed at one of the entry's operand bytes, and answered every byte before it
(R72: increasing address order). -/
theorem decodeOp_error {e : ε} (h : decodeOp m op rd = .error e) :
    ∃ k, k < (opcodeTable op).cls.operandBytes m ∧ rd (k + 1) = .error e ∧ ∀ j, j < k → ∃ b, rd (j + 1) = .ok b := by
  have hvar : ∀ f : Imm → Instr, (resolveVariable m rd >>= fun imm => pure (f imm)) = .error e →
      ∃ k, k < WidthClass.operandBytes m .variable ∧ rd (k + 1) = .error e ∧ ∀ j, j < k → ∃ b, rd (j + 1) = .ok b := by
    intro f h
    obtain h | ⟨imm, -, h⟩ := except_bind_error h
    · cases m
      · obtain h | ⟨w, -, h⟩ := except_bind_error (ε := ε) (f := fun w => pure (Imm.word w)) h
        · obtain h | ⟨⟨b, hb⟩, h⟩ := resolveWordAt_error h
          · exact ⟨0, by decide, h, by omega⟩
          · refine ⟨1, by decide, h, fun j hj => ⟨b, ?_⟩⟩
            rw [show j = 0 by omega]; exact hb
        · cases h
      · obtain h | ⟨b, -, h⟩ := except_bind_error (ε := ε) (f := fun b => pure (Imm.byte b)) h
        · exact ⟨0, by decide, h, by omega⟩
        · cases h
    · cases h
  obtain rfl | rfl | rfl | rfl | rfl | rfl | rfl | ⟨hop, htab⟩ := opcode_cases op
  · exact hvar Instr.adcImm h
  · obtain h | ⟨w, -, h⟩ := except_bind_error (f := fun w => pure (Instr.adcAbs w)) h
    · obtain h | ⟨⟨b, hb⟩, h⟩ := resolveWordAt_error h
      · exact ⟨0, Nat.succ_pos _, h, by omega⟩
      · refine ⟨1, Nat.succ_lt_succ (Nat.succ_pos _), h, fun j hj => ⟨b, ?_⟩⟩
        rw [show j = 0 by omega]; exact hb
    · cases h
  · obtain h | ⟨o, -, h⟩ := except_bind_error (f := fun o : Byte × Word => pure (Instr.adcLong o.1 o.2)) h
    · obtain h | ⟨bank, hb0, h⟩ := except_bind_error h
      · exact ⟨0, Nat.succ_pos _, h, by omega⟩
      · obtain h | ⟨w, -, h⟩ := except_bind_error h
        · obtain h | ⟨⟨b, hb⟩, h⟩ := resolveWordAt_error h
          · refine ⟨1, Nat.succ_lt_succ (Nat.succ_pos _), h, fun j hj => ⟨bank, ?_⟩⟩
            rw [show j = 0 by omega]; exact hb0
          · refine ⟨2, Nat.lt_succ_self 2, h, fun j hj => ?_⟩
            obtain rfl | rfl : j = 0 ∨ j = 1 := by omega
            · exact ⟨bank, hb0⟩
            · exact ⟨b, hb⟩
        · cases h
    · cases h
  · exact hvar Instr.ldaImm h
  · cases h
  · cases h
  · cases h
  · simp [decodeOp, htab] at h

end

/-- The operand bytes of an instruction, counted (R66). -/
theorem operandBytes_length (i : Instr) : i.operandBytes.length = i.nbytes := by
  cases i with
  | adcImm imm => cases imm <;> rfl
  | ldaImm imm => cases imm <;> rfl
  | _ => rfl

end Sys2Proof
end

