-- ==== Sys2Proof/Laws/State.lean ====
section
/-! SUPPORT. The machine's named updates, field by field: what each leaves in each field of the register record and of
the state. -/

namespace Sys2Proof.Machine

variable (r : CpuRegisters) (s : State) (m : Memory)

/-! ### `advancePc` -/

@[simp] theorem advancePc_a (n : Nat) : (advancePc n r).a = r.a := rfl
@[simp] theorem advancePc_x (n : Nat) : (advancePc n r).x = r.x := rfl
@[simp] theorem advancePc_y (n : Nat) : (advancePc n r).y = r.y := rfl
@[simp] theorem advancePc_s (n : Nat) : (advancePc n r).s = r.s := rfl
@[simp] theorem advancePc_dbr (n : Nat) : (advancePc n r).dbr = r.dbr := rfl
@[simp] theorem advancePc_pbr (n : Nat) : (advancePc n r).pbr = r.pbr := rfl
@[simp] theorem advancePc_dp (n : Nat) : (advancePc n r).dp = r.dp := rfl
@[simp] theorem advancePc_pc (n : Nat) : (advancePc n r).pc = r.pc + BitVec.ofNat 16 (1 + n) := rfl
@[simp] theorem advancePc_p (n : Nat) : (advancePc n r).p = r.p := rfl

/-! ### `clearFlag` and `setFlag` (spec/10_state.md R30) -/

@[simp] theorem clearFlag_a (f : Flag) : (clearFlag f r).a = r.a := rfl
@[simp] theorem clearFlag_x (f : Flag) : (clearFlag f r).x = r.x := rfl
@[simp] theorem clearFlag_y (f : Flag) : (clearFlag f r).y = r.y := rfl
@[simp] theorem clearFlag_s (f : Flag) : (clearFlag f r).s = r.s := rfl
@[simp] theorem clearFlag_dbr (f : Flag) : (clearFlag f r).dbr = r.dbr := rfl
@[simp] theorem clearFlag_pbr (f : Flag) : (clearFlag f r).pbr = r.pbr := rfl
@[simp] theorem clearFlag_dp (f : Flag) : (clearFlag f r).dp = r.dp := rfl
@[simp] theorem clearFlag_pc (f : Flag) : (clearFlag f r).pc = r.pc := rfl
@[simp] theorem clearFlag_p (f : Flag) : (clearFlag f r).p = withFlag r.p f false := rfl

@[simp] theorem setFlag_x (f : Flag) : (setFlag f r).x = r.x := by cases f <;> rfl
@[simp] theorem setFlag_y (f : Flag) : (setFlag f r).y = r.y := by cases f <;> rfl
@[simp] theorem setFlag_s (f : Flag) : (setFlag f r).s = r.s := by cases f <;> rfl
@[simp] theorem setFlag_dbr (f : Flag) : (setFlag f r).dbr = r.dbr := by cases f <;> rfl
@[simp] theorem setFlag_pbr (f : Flag) : (setFlag f r).pbr = r.pbr := by cases f <;> rfl
@[simp] theorem setFlag_dp (f : Flag) : (setFlag f r).dp = r.dp := by cases f <;> rfl
@[simp] theorem setFlag_pc (f : Flag) : (setFlag f r).pc = r.pc := by cases f <;> rfl
@[simp] theorem setFlag_p (f : Flag) : (setFlag f r).p = withFlag r.p f true := by cases f <;> rfl

/-- `set_flag` changes `A` only for AccSize (R30). -/
theorem setFlag_a (f : Flag) : (setFlag f r).a = if f = .accSize then zext16 (loByte r.a) else r.a := by
  cases f <;> rfl

/-! ### Memory updates -/

@[simp] theorem poke_size (a : Nat) (v : Byte) : (m.poke a v).size = m.size := rfl
@[simp] theorem poke_cells (a : Nat) (v : Byte) : (m.poke a v).cells = insertCell m.cells a v := rfl
@[simp] theorem poke_inBounds (a b : Nat) (v : Byte) : (m.poke a v).inBounds b = m.inBounds b := rfl

/-! ### Reset (R35) -/

@[simp] theorem reset_pbr (rp : ResetParams) : (CpuRegisters.reset rp).pbr = 0x80 := rfl
@[simp] theorem reset_pc (rp : ResetParams) : (CpuRegisters.reset rp).pc = 0x8000 := rfl
@[simp] theorem reset_p (rp : ResetParams) : (CpuRegisters.reset rp).p = 0x00 := rfl

end Sys2Proof.Machine
end

