-- ==== Sys2Proof/Laws/Flags.lean ====
section
/-! SUPPORT. Flags: a flag write changes exactly its own bit (spec/10_state.md R28), and what ADC and LDA leave in each
field. -/

namespace Sys2Proof.Machine

theorem Flag.bit_inj {f g : Flag} (h : f.bit = g.bit) : f = g := by
  cases f <;> cases g <;> first | rfl | (exact absurd h (by decide))

theorem Flag.bit_lt (f : Flag) : f.bit < 8 := by cases f <;> decide

/-- Reading a flag after writing one (R28). -/
theorem flagOf_withFlag (p : Byte) (f g : Flag) (v : Bool) :
    flagOf (withFlag p f v) g = if g = f then v else flagOf p g := by
  have hone : (1#8 <<< f.bit).getLsbD g.bit = decide (g = f) := by
    cases f <;> cases g <;> decide
  have hg := g.bit_lt
  cases v
  · simp only [flagOf, withFlag, Bool.false_eq_true, if_false, BitVec.getLsbD_and, BitVec.getLsbD_not, hone, hg]
    by_cases h : g = f <;> simp [h]
  · simp only [flagOf, withFlag, if_true, BitVec.getLsbD_or, hone]
    by_cases h : g = f <;> simp [h]

/-- A status byte is its eight flags. -/
theorem status_ext {p q : Byte} (h : ∀ f, flagOf p f = flagOf q f) : p = q := by
  apply BitVec.eq_of_getLsbD_eq
  intro i hi
  match i, hi with
  | 0, _ => exact h .carry
  | 1, _ => exact h .zero
  | 2, _ => exact h .irqDisable
  | 3, _ => exact h .decimal
  | 4, _ => exact h .indexSize
  | 5, _ => exact h .accSize
  | 6, _ => exact h .overflow
  | 7, _ => exact h .negative

/-- The four flags ADC writes, and the four it leaves (spec/41_arithmetic.md R112). -/
theorem flagOf_withAdcFlags (p : Byte) (c v n z : Bool) (g : Flag) :
    flagOf (withAdcFlags p c v n z) g =
      match g with
      | .carry => c
      | .overflow => v
      | .negative => n
      | .zero => z
      | g => flagOf p g := by
  cases g <;> simp [withAdcFlags, flagOf_withFlag]

section
variable (v : Word) (r : CpuRegisters)

@[simp] theorem adcCore_x : (adcCore v r).x = r.x := by unfold adcCore; split <;> rfl
@[simp] theorem adcCore_y : (adcCore v r).y = r.y := by unfold adcCore; split <;> rfl
@[simp] theorem adcCore_s : (adcCore v r).s = r.s := by unfold adcCore; split <;> rfl
@[simp] theorem adcCore_dp : (adcCore v r).dp = r.dp := by unfold adcCore; split <;> rfl
@[simp] theorem adcCore_dbr : (adcCore v r).dbr = r.dbr := by unfold adcCore; split <;> rfl
@[simp] theorem adcCore_pbr : (adcCore v r).pbr = r.pbr := by unfold adcCore; split <;> rfl
@[simp] theorem adcCore_pc : (adcCore v r).pc = r.pc := by unfold adcCore; split <;> rfl

@[simp] theorem ldaCore_x : (ldaCore v r).x = r.x := rfl
@[simp] theorem ldaCore_y : (ldaCore v r).y = r.y := rfl
@[simp] theorem ldaCore_s : (ldaCore v r).s = r.s := rfl
@[simp] theorem ldaCore_dp : (ldaCore v r).dp = r.dp := rfl
@[simp] theorem ldaCore_dbr : (ldaCore v r).dbr = r.dbr := rfl
@[simp] theorem ldaCore_pbr : (ldaCore v r).pbr = r.pbr := rfl
@[simp] theorem ldaCore_pc : (ldaCore v r).pc = r.pc := rfl

/-- ADC leaves `P.I`, `P.D`, `P.X` and `P.M` (R112). -/
theorem adcCore_flag_other {g : Flag} (hg : g ∉ [Flag.carry, .overflow, .negative, .zero]) :
    getFlag g (adcCore v r) = getFlag g r := by
  unfold adcCore adcCore8 adcCore16 getFlag
  split <;> simp only [flagOf_withAdcFlags] <;> cases g <;> simp_all

/-- LDA leaves every flag but `P.Z` (spec/42_load.md R121). -/
theorem ldaCore_flag_other {g : Flag} (hg : g ≠ .zero) : getFlag g (ldaCore v r) = getFlag g r := by
  simp [getFlag, ldaCore, flagOf_withFlag, hg]

end

end Sys2Proof.Machine
end

