-- ==== Sys2Proof/Laws/Memory.lean ====
section
/-! SUPPORT. Memory: reading after writing, and that every memory operation keeps the canonical form
(spec/20_memory.md R45 to R54). -/

namespace Sys2Proof.Machine

theorem canonicalFrom_cons {lo size k : Nat} {v : Byte} {rest : List Host.Cell} :
    canonicalFrom lo size ((k, v) :: rest) = true ↔
      lo ≤ k ∧ k < size ∧ v ≠ Config.blankByte ∧ canonicalFrom (k + 1) size rest = true := by
  simp [canonicalFrom, and_assoc]

/-- A lower starting address is as good. -/
theorem canonicalFrom_mono {lo lo' size : Nat} {cs : List Host.Cell} (h : canonicalFrom lo size cs = true)
    (hle : lo' ≤ lo) : canonicalFrom lo' size cs = true := by
  cases cs with
  | nil => rfl
  | cons c rest =>
    obtain ⟨k, v⟩ := c
    rw [canonicalFrom_cons] at h ⊢
    exact ⟨by omega, h.2⟩

/-- Nothing is listed below the starting address. -/
theorem lookupCell_below {lo size a : Nat} {cs : List Host.Cell} (h : canonicalFrom lo size cs = true)
    (ha : a < lo) : lookupCell cs a = Config.blankByte := by
  induction cs generalizing lo with
  | nil => rfl
  | cons c rest ih =>
    obtain ⟨k, v⟩ := c
    rw [canonicalFrom_cons] at h
    rw [lookupCell, if_neg (by omega)]
    exact ih h.2.2.2 (by omega)

/-- Writing one address leaves every other address alone. -/
theorem lookupCell_insertCell_ne {a b : Nat} (v : Byte) (cs : List Host.Cell) (h : b ≠ a) :
    lookupCell (insertCell cs a v) b = lookupCell cs b := by
  induction cs with
  | nil =>
    rw [insertCell]
    split
    · rfl
    · simp [lookupCell, Ne.symm h]
  | cons c rest ih =>
    obtain ⟨k, w⟩ := c
    rw [insertCell]
    split
    · split
      · rfl
      · simp [lookupCell, Ne.symm h]
    · split
      · next hk =>
        subst hk
        split <;> simp [lookupCell, Ne.symm h]
      · simp only [lookupCell, ih]

/-- The address written reads as the value written. -/
theorem lookupCell_insertCell_self {lo size : Nat} (a : Nat) (v : Byte) {cs : List Host.Cell}
    (h : canonicalFrom lo size cs = true) : lookupCell (insertCell cs a v) a = v := by
  induction cs generalizing lo with
  | nil =>
    rw [insertCell]
    split
    · next hv => simp [lookupCell, hv]
    · simp [lookupCell]
  | cons c rest ih =>
    obtain ⟨k, w⟩ := c
    have hc := canonicalFrom_cons.mp h
    rw [insertCell]
    split
    · next hlt =>
      split
      · next hv =>
        rw [hv]
        exact lookupCell_below (canonicalFrom_cons.mpr ⟨Nat.le_refl k, hc.2⟩) hlt
      · simp [lookupCell]
    · split
      · next hk =>
        split
        · next hv =>
          rw [hv]
          exact lookupCell_below hc.2.2.2 (by omega)
        · simp [lookupCell]
      · next hne =>
        rw [lookupCell, if_neg (by omega)]
        exact ih hc.2.2.2

/-- A write keeps the canonical form. -/
theorem canonicalFrom_insertCell {lo size a : Nat} (v : Byte) {cs : List Host.Cell}
    (h : canonicalFrom lo size cs = true) (hlo : lo ≤ a) (ha : a < size) :
    canonicalFrom lo size (insertCell cs a v) = true := by
  induction cs generalizing lo with
  | nil =>
    rw [insertCell]
    split
    · rfl
    · next hv => exact canonicalFrom_cons.mpr ⟨hlo, ha, hv, rfl⟩
  | cons c rest ih =>
    obtain ⟨k, w⟩ := c
    have hc := canonicalFrom_cons.mp h
    rw [insertCell]
    split
    · next hlt =>
      split
      · exact h
      · next hv =>
        exact canonicalFrom_cons.mpr ⟨hlo, ha, hv, canonicalFrom_cons.mpr ⟨by omega, hc.2⟩⟩
    · split
      · next hk =>
        split
        · exact canonicalFrom_mono hc.2.2.2 (by omega)
        · next hv => exact canonicalFrom_cons.mpr ⟨hlo, ha, hv, hk ▸ hc.2.2.2⟩
      · next hne =>
        exact canonicalFrom_cons.mpr ⟨hc.1, hc.2.1, hc.2.2.1, ih hc.2.2.2 (by omega)⟩

/-! ### The memory -/

theorem inBounds_iff {m : Memory} {a : Nat} : m.inBounds a = true ↔ a < m.size := by
  simp [Memory.inBounds]

theorem getByte_of_lt {m : Memory} {a : Nat} (h : a < m.size) : m.getByte a = .ok (lookupCell m.cells a) := by
  simp [Memory.getByte, Memory.inBounds, h]

theorem getByte_of_le {m : Memory} {a : Nat} (h : m.size ≤ a) : m.getByte a = .error a := by
  simp [Memory.getByte, Memory.inBounds, h]

/-- A byte read that answers was in bounds; one that fails names its own address, out of bounds (R48). -/
theorem getByte_ok_lt {m : Memory} {a : Nat} {b : Byte} (h : m.getByte a = .ok b) : a < m.size := by
  by_contra hn
  rw [getByte_of_le (by omega)] at h
  cases h

theorem getByte_error {m : Memory} {a e : Nat} (h : m.getByte a = .error e) : e = a ∧ m.size ≤ a := by
  by_cases ha : a < m.size
  · rw [getByte_of_lt ha] at h; cases h
  · rw [getByte_of_le (by omega)] at h
    exact ⟨(Except.error.inj h).symm, by omega⟩

theorem wf_iff {m : Memory} :
    m.wf = true ↔ 1 ≤ m.size ∧ m.size ≤ Config.addressSpace ∧ canonicalFrom 0 m.size m.cells = true := by
  simp [Memory.wf, and_assoc]

/-- Reading after a write, at any address. -/
theorem getByte_poke {m : Memory} {a : Nat} (v : Byte) (b : Nat) (hwf : m.wf = true) (ha : a < m.size) :
    (m.poke a v).getByte b = if b = a then .ok v else m.getByte b := by
  have hc := (wf_iff.mp hwf).2.2
  by_cases hb : b = a
  · subst hb
    rw [if_pos rfl, getByte_of_lt (m := m.poke b v) ha, poke_cells, lookupCell_insertCell_self b v hc]
  · simp only [Memory.getByte, poke_inBounds, poke_cells, lookupCell_insertCell_ne v _ hb, if_neg hb]

theorem poke_wf {m : Memory} {a : Nat} (v : Byte) (hwf : m.wf = true) (ha : a < m.size) : (m.poke a v).wf = true := by
  obtain ⟨h1, h2, hc⟩ := wf_iff.mp hwf
  exact wf_iff.mpr ⟨h1, h2, canonicalFrom_insertCell v hc (Nat.zero_le a) ha⟩

/-- What a byte write can do: it fails at an address out of bounds, or it is a poke in bounds (R52). -/
theorem write1_cases {m : Memory} {a : Nat} {v : Byte} {x : Except MemError Memory} (h : m.write1 a v = x) :
    (m.size ≤ a ∧ x = .error ⟨.data, a⟩) ∨ (a < m.size ∧ x = .ok (m.poke a v)) := by
  subst h
  by_cases ha : a < m.size
  · exact .inr ⟨ha, by simp [Memory.write1, Memory.inBounds, ha]⟩
  · exact .inl ⟨by omega, by simp [Memory.write1, Memory.inBounds, ha]⟩

/-- What a word write can do: fail at its first address out of bounds, or write both bytes (R52). -/
theorem write2_cases {m : Memory} {a : Nat} {v : Word} {x : Except MemError Memory} (h : m.write2 a v = x) :
    (m.size ≤ a ∧ x = .error ⟨.data, a⟩) ∨ (a < m.size ∧ m.size ≤ a + 1 ∧ x = .error ⟨.data, a + 1⟩) ∨
      (a + 1 < m.size ∧ x = .ok ((m.poke a (loByte v)).poke (a + 1) (hiByte v))) := by
  subst h
  by_cases h0 : a < m.size
  · by_cases h1 : a + 1 < m.size
    · exact .inr (.inr ⟨h1, by simp [Memory.write2, Memory.inBounds, h0, h1]⟩)
    · exact .inr (.inl ⟨h0, by omega, by simp [Memory.write2, Memory.inBounds, h0, h1]⟩)
  · exact .inl ⟨by omega, by simp [Memory.write2, Memory.inBounds, h0]⟩

theorem write1_wf {m m' : Memory} {a : Nat} {v : Byte} (hwf : m.wf = true) (h : m.write1 a v = .ok m') :
    m'.wf = true := by
  obtain ⟨-, hx⟩ | ⟨ha, hx⟩ := write1_cases h
  · cases hx
  · cases hx; exact poke_wf v hwf ha

theorem write2_wf {m m' : Memory} {a : Nat} {v : Word} (hwf : m.wf = true) (h : m.write2 a v = .ok m') :
    m'.wf = true := by
  obtain ⟨-, hx⟩ | ⟨-, -, hx⟩ | ⟨ha, hx⟩ := write2_cases h
  · cases hx
  · cases hx
  · cases hx; exact poke_wf _ (poke_wf _ hwf (by omega)) (by simpa using ha)

theorem pokeBytes_wf {m : Memory} {a : Nat} (bs : List Byte) (hwf : m.wf = true) :
    (pokeBytes m a bs).wf = true := by
  induction bs generalizing m a with
  | nil => exact hwf
  | cons b rest ih =>
    rw [pokeBytes]
    split
    · next hb => exact ih (poke_wf b hwf (inBounds_iff.mp hb))
    · exact ih hwf

/-- Storing a table word where the step fetches keeps the canonical form (log 8). -/
theorem fetchWordMemory_wf {s : State} (nbits w : Nat) (hwf : s.mem.wf = true) :
    (fetchWordMemory s nbits w).wf = true :=
  pokeBytes_wf _ hwf

/-! ### Images -/

theorem canonicalFrom_imageCells (a size : Nat) (bs : List Byte) (h : a + bs.length ≤ size) :
    canonicalFrom a size (imageCells a bs) = true := by
  induction bs generalizing a with
  | nil => rfl
  | cons b rest ih =>
    rw [List.length_cons] at h
    have hrest := ih (a + 1) (by omega)
    rw [imageCells]
    split
    · exact canonicalFrom_mono hrest (by omega)
    · next hb => exact canonicalFrom_cons.mpr ⟨Nat.le_refl a, by omega, hb, hrest⟩

theorem lookupCell_imageCells (a k : Nat) (bs : List Byte) :
    lookupCell (imageCells a bs) (a + k) = bs.getD k Config.blankByte := by
  induction bs generalizing a k with
  | nil => rfl
  | cons b rest ih =>
    have hbelow : lookupCell (imageCells (a + 1) rest) a = Config.blankByte :=
      lookupCell_below (canonicalFrom_imageCells (a + 1) _ rest (Nat.le_refl _)) (by omega)
    cases k with
    | zero =>
      rw [imageCells]
      split
      · next hb => simpa [hb] using hbelow
      · simp [lookupCell]
    | succ k =>
      have hk := ih (a + 1) k
      rw [show a + 1 + k = a + (k + 1) by omega] at hk
      rw [imageCells]
      split
      · simpa using hk
      · rw [lookupCell, if_neg (by omega)]
        simpa using hk

theorem ofImage_wf (image : List Byte) (hlo : 1 ≤ image.length) (hhi : image.length ≤ Config.addressSpace) :
    (Memory.ofImage image).wf = true :=
  wf_iff.mpr ⟨hlo, hhi, canonicalFrom_imageCells 0 _ image (by simp [Memory.ofImage])⟩

end Sys2Proof.Machine
end

