-- ==== Sys2Proof/Laws/PerInstr.lean ====
section
/-! SUPPORT. Laws of the syntax, one lemma per constructor: an instruction's bytes number its length, which is at most
four and is the length the opcode table gives at any mode it is well formed in (spec/30_encoding.md R65, R74). -/

namespace Sys2Proof.Laws.EncodedLength

def Statement (i : Instr) : Prop :=
  (encode i).length = i.length ∧ i.length ≤ 4 ∧
    ∀ m, i.wellFormed m = true → 1 + (opcodeTable i.opcode).cls.operandBytes m = i.length

theorem of_nbytes {i : Instr} (h : i.nbytes ≤ 3) : Statement i :=
  ⟨by simp [encode, operandBytes_length, Instr.length, Nat.add_comm], by simp only [Instr.length]; omega,
    fun _ hwf => by rw [operandBytes_of_wellFormed hwf, Instr.length]⟩

theorem imm_nbytes_le (imm : Imm) : imm.nbytes ≤ 3 := by
  cases imm <;> simp [Imm.nbytes]

theorem adcImm (imm : Imm) : Statement (.adcImm imm) := of_nbytes (imm_nbytes_le imm)
theorem adcAbs (addr : Word) : Statement (.adcAbs addr) := of_nbytes (Nat.le_succ 2)
theorem adcLong (bank : Byte) (addr : Word) : Statement (.adcLong bank addr) := of_nbytes (Nat.le_refl 3)
theorem ldaImm (imm : Imm) : Statement (.ldaImm imm) := of_nbytes (imm_nbytes_le imm)
theorem nop : Statement .nop := of_nbytes (by decide)
theorem stp00 : Statement .stp00 := of_nbytes (by decide)
theorem stpDB : Statement .stpDB := of_nbytes (by decide)
theorem halt (op : Byte) : Statement (.halt op) := of_nbytes (Nat.zero_le 3)

end Sys2Proof.Laws.EncodedLength
end

