-- ==== Sys2Proof/Laws/Step.lean ====
section
/-! SUPPORT. What a step, and each operation a step is made of, can answer; later proofs cite these instead of unfolding
the step (spec/40_pipeline.md R102). -/

namespace Sys2Proof.Machine

theorem compose_toNat (bank : Byte) (offset : Word) :
    (compose bank offset).toNat = bank.toNat * 65536 + offset.toNat := by
  have hb := bank.isLt
  have ho := offset.isLt
  have h1 : (bank.setWidth 24 <<< 16 : Addr).toNat = 2 ^ 16 * bank.toNat := by
    simp [Nat.shiftLeft_eq]
    omega
  have h2 : (offset.setWidth 24 : Addr).toNat = offset.toNat := by
    simp
    omega
  rw [compose, BitVec.toNat_or, h1, h2, ← Nat.two_pow_add_eq_or_of_lt ho]
  omega

theorem fetchByte_eq (s : State) (ph : Phase) (k : Nat) :
    fetchByte s ph k = labelled ph (s.mem.getByte ((instrAddr s.regs).toNat + k)) := rfl

theorem labelled_ok {α : Type} {ph : Phase} {x : Except Nat α} {v : α} : labelled ph x = .ok v ↔ x = .ok v := by
  cases x <;> simp [labelled]

theorem labelled_error {α : Type} {ph : Phase} {x : Except Nat α} {e : MemError} :
    labelled ph x = .error e ↔ e.phase = ph ∧ x = .error e.addr := by
  obtain ⟨p, a⟩ := e
  cases x <;> simp [labelled, eq_comm]

/-- The three ways a step can end (R102). -/
theorem step_cases (s : State) :
    (∃ e, fetchOpcode s = .error e ∧ step s = raiseFault s none e) ∨
    (∃ op e, fetchOpcode s = .ok op ∧ fetchOperands s op = .error e ∧ step s = raiseFault s (some op) e) ∨
    (∃ op i, fetchOpcode s = .ok op ∧ fetchOperands s op = .ok i ∧ step s = exec i s) := by
  unfold step
  cases h : fetchOpcode s with
  | error e => exact .inl ⟨e, rfl, rfl⟩
  | ok op =>
    cases h' : fetchOperands s op with
    | error e => exact .inr (.inl ⟨op, e, rfl, h', by simp [h']⟩)
    | ok i => exact .inr (.inr ⟨op, i, rfl, h', by simp [h']⟩)

/-- The one way a step answers a next state: an instruction was decoded and `exec` answered it. -/
theorem step_next {s t : State} (h : step s = .next t) :
    ∃ op i, fetchOpcode s = .ok op ∧ fetchOperands s op = .ok i ∧ exec i s = .next t := by
  obtain ⟨e, -, hs⟩ | ⟨op, e, -, -, hs⟩ | ⟨op, i, h1, h2, hs⟩ := step_cases s
  · rw [hs] at h; cases h
  · rw [hs] at h; cases h
  · exact ⟨op, i, h1, h2, hs ▸ h⟩

/-- The two ways ADC from memory can end: the data read's fault, or the sum of the value read (R109). -/
theorem adcFromMemory_cases (opcode : Byte) (far : Option Byte) (offset : Word) (nbytes : Nat) (base : BitVec 8)
    (s : State) :
    (∃ e, readData s.regs s.mem (effectiveAddr far offset s.regs) = .error e ∧
      adcFromMemory opcode far offset nbytes base s = raiseFault s (some opcode) e) ∨
    (∃ v, readData s.regs s.mem (effectiveAddr far offset s.regs) = .ok v ∧
      adcFromMemory opcode far offset nbytes base s =
        retire s (adcCore v s.regs) nbytes (base + zeroExtra v)) := by
  unfold adcFromMemory
  cases h : readData s.regs s.mem (effectiveAddr far offset s.regs) with
  | error e => exact .inl ⟨e, rfl, rfl⟩
  | ok v => exact .inr ⟨v, rfl, rfl⟩

/-- The state a completed instruction leaves: nothing but the output (it halted), or new registers `r`, the `PC`
advanced by its length and the cycles `n`; `r` is the old record (NOP), or ADC's or LDA's (R97 to R99). -/
theorem exec_next {i : Instr} {s t : State} (h : exec i s = .next t) :
    ((i = .stp00 ∨ i = .stpDB ∨ ∃ op, i = .halt op) ∧ t = { s with out := .halted 3 }) ∨
    (∃ r n, t = { s with regs := advancePc i.nbytes r, out := .running n } ∧
      ((i = .nop ∧ r = s.regs ∧ n = 2) ∨
       (∃ imm, i = .ldaImm imm ∧ r = ldaCore (immValue imm) s.regs ∧ n = immBase s.regs) ∨
       (∃ v, r = adcCore v s.regs ∧
         ((∃ imm, i = .adcImm imm ∧ v = immValue imm ∧ n = immBase s.regs + zeroExtra v) ∨
          (∃ a, i = .adcAbs a ∧ n = 4 + zeroExtra v ∧ readData s.regs s.mem (compose s.regs.dbr a) = .ok v) ∨
          (∃ b a, i = .adcLong b a ∧ n = 5 + zeroExtra v ∧ readData s.regs s.mem (compose b a) = .ok v))))) := by
  cases i with
  | adcImm imm =>
    cases h
    exact .inr ⟨_, _, rfl, .inr (.inr ⟨_, rfl, .inl ⟨imm, rfl, rfl, rfl⟩⟩)⟩
  | adcAbs a =>
    obtain ⟨e, -, hx⟩ | ⟨v, hv, hx⟩ := adcFromMemory_cases 0x6D none a 2 4 s
    · rw [show exec (.adcAbs a) s = adcFromMemory 0x6D none a 2 4 s from rfl, hx] at h; cases h
    · rw [show exec (.adcAbs a) s = adcFromMemory 0x6D none a 2 4 s from rfl, hx] at h
      cases h
      exact .inr ⟨_, _, rfl, .inr (.inr ⟨v, rfl, .inr (.inl ⟨a, rfl, rfl, hv⟩)⟩)⟩
  | adcLong b a =>
    obtain ⟨e, -, hx⟩ | ⟨v, hv, hx⟩ := adcFromMemory_cases 0x6F (some b) a 3 5 s
    · rw [show exec (.adcLong b a) s = adcFromMemory 0x6F (some b) a 3 5 s from rfl, hx] at h; cases h
    · rw [show exec (.adcLong b a) s = adcFromMemory 0x6F (some b) a 3 5 s from rfl, hx] at h
      cases h
      exact .inr ⟨_, _, rfl, .inr (.inr ⟨v, rfl, .inr (.inr ⟨b, a, rfl, rfl, hv⟩)⟩)⟩
  | ldaImm imm =>
    cases h
    exact .inr ⟨_, _, rfl, .inr (.inl ⟨imm, rfl, rfl, rfl⟩)⟩
  | nop => cases h; exact .inr ⟨_, _, rfl, .inl ⟨rfl, rfl, rfl⟩⟩
  | stp00 => cases h; exact .inl ⟨.inl rfl, rfl⟩
  | stpDB => cases h; exact .inl ⟨.inr (.inl rfl), rfl⟩
  | halt op => cases h; exact .inl ⟨.inr (.inr ⟨op, rfl⟩), rfl⟩

end Sys2Proof.Machine
end

