-- ==== Sys2Proof/Tests/Slice0.lean ====
section
/-! SUPPORT. Tests: the ill-formed terms WellFormed refuses, words written out from the spec's encodings, single steps
with the results of spec/95_test_vectors.md, and for each statement with hypotheses a concrete witness that meets
them. -/

namespace Sys2Proof.Tests

open Sys2Proof Sys2Proof.Machine

/-! ### Helpers -/

/-- A state at `80:8000` unless `pc` says otherwise; `X`, `Y`, `S`, `DP` are zero. -/
def st (size : Nat) (a : Word) (p dbr : Byte) (pc : Word) (cells : List Host.Cell) : State :=
  { regs := { a := a, x := 0, y := 0, s := 0, dbr := dbr, pbr := 0x80, dp := 0, pc := pc, p := p },
    mem := { size := size, cells := cells }, out := .none }

/-- The whole 24-bit image. -/
def full : Nat := 0x1000000

/-- The outcome is a next state with this accumulator, status, `PC` and output. -/
def isNext (o : Host.Outcome State Fault Refusal) (a : Word) (p : Byte) (pc : Word) (out : StepOutput) : Bool :=
  match o with
  | .next t => decide (t.regs.a = a) && decide (t.regs.p = p) && decide (t.regs.pc = pc) && decide (t.out = out)
  | _ => false

/-- The outcome is this fault. -/
def isFault (o : Host.Outcome State Fault Refusal) (f : Fault) : Bool :=
  match o with
  | .fault g => decide (g = f)
  | _ => false

/-- The list decodes, at mode `m`, to this instruction and leaves this rest. -/
def decodesTo (m : Bool) (bs : List Byte) (i : Instr) (rest : List Byte) : Bool :=
  match decode m bs with
  | .ok (j, r) => decide (j = i) && decide (r = rest)
  | .error _ => false

/-! ### WellFormed: an ill-formed term for each check (R70, R77) -/

theorem test_byte_immediate_refused_in_16bit_mode : (Instr.adcImm (.byte 0x05)).wellFormed false = false := by decide
theorem test_word_immediate_refused_in_8bit_mode : (Instr.ldaImm (.word 0x0005)).wellFormed true = false := by decide
theorem test_implemented_byte_is_no_halt : (Instr.halt 0x69).wellFormed true = false := by decide
theorem test_stp_byte_is_no_halt : (Instr.halt 0xDB).wellFormed false = false := by decide

/-! ### Decoding: words written out bit by bit from R76, R77, R71 -/

theorem test_decode_adc_imm8 : decodesTo true [0b01101001, 0x05, 0xFF] (.adcImm (.byte 0x05)) [0xFF] = true := by decide
theorem test_decode_adc_imm16 : decodesTo false [0b01101001, 0x05, 0xFF] (.adcImm (.word 0xFF05)) [] = true := by decide
theorem test_decode_adc_abs : decodesTo true [0b01101101, 0x34, 0x12] (.adcAbs 0x1234) [] = true := by decide
theorem test_decode_adc_long :
    decodesTo false [0b01101111, 0x7E, 0x34, 0x12] (.adcLong 0x7E 0x1234) [] = true := by decide
theorem test_decode_lda_imm8 : decodesTo true [0b10101001, 0x80] (.ldaImm (.byte 0x80)) [] = true := by decide
theorem test_decode_lda_imm16 : decodesTo false [0b10101001, 0x00, 0x80] (.ldaImm (.word 0x8000)) [] = true := by decide
theorem test_decode_nop : decodesTo true [0b11101010] .nop [] = true := by decide
theorem test_decode_stp00 : decodesTo false [0b00000000] .stp00 [] = true := by decide
theorem test_decode_stpDB : decodesTo true [0b11011011] .stpDB [] = true := by decide
theorem test_decode_halt : decodesTo true [0b01000010, 0xEA] (.halt 0x42) [0xEA] = true := by decide
theorem test_decode_too_short : decode false [0x6F, 0x7E] = .error (.missingOperandByte 2) := by rfl
theorem test_decode_empty : decode true [] = .error .noOpcode := by rfl
/-- S8, F8: 249 of the 256 bytes are HALT. -/
theorem test_halt_count :
    ((List.range 16).map fun h => ((List.range 16).filter fun l =>
      decide ((opcodeTable (BitVec.ofNat 8 (16 * h + l))).handler = .halt)).length).sum = 249 := by
  decide
theorem test_decodeTableWord_lda : decodeTableWord 8 0xA9 = some (.ldaImm (.word 0)) := by rfl
theorem test_asm_adc_long : asm (.adcLong 0x7E 0x1234) = ['A', 'D', 'C', ' ', '$', '7', 'E', '1', '2', '3', '4'] := by
  decide
theorem test_asm_wrong_width_refused : readAsm false ['L', 'D', 'A', ' ', '#', '$', '8', '0'] = none := by decide

/-! ### Single steps, from spec/95_test_vectors.md -/

/-- A6: carry-in on an all-ones operand, 8-bit. -/
theorem test_adcImm_A6 :
    isNext (step (st full 0x0010 0x21 0 0x8000 [(0x808000, 0x69), (0x808001, 0xFF)])) 0x0010 0x20 0x8002
      (.running 2) = true := by decide
/-- A8: the signed-overflow corner. -/
theorem test_adcImm_A8 :
    isNext (step (st full 0x0080 0x21 0 0x8000 [(0x808000, 0x69), (0x808001, 0x7F)])) 0x0000 0x63 0x8002
      (.running 2) = true := by decide
/-- C4: a 16-bit read at the end of a bank takes its high byte from the next bank. -/
theorem test_adcAbs_C4 :
    isNext (step (st full 0x0000 0x00 0x7E 0x8000
      [(0x7EFFFF, 0x01), (0x808000, 0x6D), (0x808001, 0xFF), (0x808002, 0xFF)])) 0x0001 0x00 0x8003
      (.running 4) = true := by decide
/-- C10: the second data byte out of bounds. -/
theorem test_adcAbs_C10 :
    isFault (step (st 0x810000 0x0000 0x00 0x80 0x8000
      [(0x808000, 0x6D), (0x808001, 0xFF), (0x808002, 0xFF), (0x80FFFF, 0x01)]))
      (oobFault .data 0x810000 0x808000 (some 0x6D)) = true := by decide
/-- C7: value 0 and carry-in. -/
theorem test_adcLong_C7 :
    isNext (step (st full 0xFFFF 0x01 0x12 0x8000 [(0x808000, 0x6F), (0x808001, 0x7E)])) 0x0000 0x03 0x8004
      (.running 6) = true := by decide
/-- C8: `DBR` is not used. -/
theorem test_adcLong_C8 :
    isNext (step (st full 0x1000 0x00 0x00 0x8000
      [(0x003000, 0x99), (0x7E3000, 0x34), (0x7E3001, 0x02), (0x808000, 0x6F), (0x808001, 0x7E), (0x808003, 0x30)]))
      0x1234 0x00 0x8004 (.running 5) = true := by decide
/-- L2: Negative stays 0. -/
theorem test_ldaImm_L2 :
    isNext (step (st full 0x0012 0x20 0 0x8000 [(0x808000, 0xA9), (0x808001, 0x80)])) 0x0080 0x20 0x8002
      (.running 2) = true := by decide
/-- L4: Negative, Overflow and Carry stay; no zero extra. -/
theorem test_ldaImm_L4 :
    isNext (step (st full 0x1234 0xC1 0 0x8000 [(0x808000, 0xA9)])) 0x0000 0xC3 0x8003 (.running 3) = true := by decide
/-- N2: `PC` wraps inside the bank. -/
theorem test_nop_N2 :
    isNext (step (st full 0x0007 0x00 0 0xFFFF [(0x80FFFF, 0xEA)])) 0x0007 0x00 0x0000 (.running 2) = true := by decide
/-- N3: STP at byte 00, `PC` not advanced. -/
theorem test_stp00_N3 : isNext (step (st full 0x0007 0x21 0 0x8000 [])) 0x0007 0x21 0x8000 (.halted 3) = true := by decide
/-- N4. -/
theorem test_stpDB_N4 :
    isNext (step (st full 0x0007 0x21 0 0x8000 [(0x808000, 0xDB)])) 0x0007 0x21 0x8000 (.halted 3) = true := by decide
/-- N5, on an image that ends after the byte: no operand is read. -/
theorem test_halt_N5 :
    isNext (step (st 0x808001 0x0007 0x21 0 0x8000 [(0x808000, 0x42)])) 0x0007 0x21 0x8000 (.halted 3) = true := by
  decide
/-- F1: an operand read across the bank. -/
theorem test_ldaImm_F1 :
    isNext (step (st full 0x0000 0x00 0 0xFFFE [(0x80FFFE, 0xA9), (0x80FFFF, 0x34), (0x810000, 0x12)])) 0x1234 0x00
      0x0001 (.running 3) = true := by decide
/-- F5: the opcode fetch of the reset state on a small image. -/
theorem test_fault_F5 :
    isFault (step (st 0x8000 0 0 0 0x8000 [])) (oobFault .opcode 0x808000 0x808000 none) = true := by decide
/-- F6: the operand fetch. -/
theorem test_fault_F6 :
    isFault (step (st 0x808001 0 0x20 0 0x8000 [(0x808000, 0xA9)]))
      (oobFault .operand 0x808001 0x808000 (some 0xA9)) = true := by decide
/-- F7: past the last address of the 24-bit space. -/
theorem test_fault_F7 :
    isFault (step { st full 0 0x20 0 0xFFFF [(0xFFFFFF, 0x69)] with
      regs := { a := 0, x := 0, y := 0, s := 0, dbr := 0, pbr := 0xFF, dp := 0, pc := 0xFFFF, p := 0x20 } })
      (oobFault .operand 0x1000000 0xFFFFFF (some 0x69)) = true := by decide

/-- P3, P4: the register port masks `A` in 8-bit mode and truncates it when a write of `P` sets AccSize. -/
theorem test_port_P3 : (writeReg .A 0xABCD (st full 0 0x20 0 0 []).regs).a = 0x00CD := by decide
theorem test_port_P4 :
    (writeReg .P 0x21 (st full 0xABCD 0x00 0 0 []).regs).p = 0x21 ∧
      (writeReg .P 0x21 (st full 0xABCD 0x00 0 0 []).regs).a = 0x00CD := by decide

/-- R135: the phases' numbers. -/
theorem test_phase_numbers : Phase.opcode.num = 0 ∧ Phase.operand.num = 1 ∧ Phase.data.num = 2 := by decide

/-- The host's row check on one row: the stored table word is fetched and run as the first instruction after reset. -/
theorem test_withFetchWord_nop :
    isNext (step (State.reset.withFetchWord 8 0xEA)) 0 0 0x8001 (.running 2) = true := by decide
theorem test_withFetchWord_adc_imm :
    isNext (step (State.reset.withFetchWord 8 0x69)) 0 0x02 0x8003 (.running 4) = true := by decide

/-- R104: the first step of a run on an empty image halts it. -/
theorem test_run_halts : run 5 State.reset = .halted { State.reset with out := .halted 3 } 3 := by rfl

/-! ### Witnesses: concrete data that meet each statement's hypotheses together -/

/-- Bytes at the instruction address, as a decidable check over their positions. -/
theorem bytesAt_of {s : State} {bs : List Byte}
    (h : ∀ k, k < bs.length →
      lookupCell s.mem.cells ((instrAddr s.regs).toNat + k) = bs.getD k 0 ∧ (instrAddr s.regs).toNat + k < s.mem.size) :
    BytesAt s bs := by
  intro k b hb
  have hk : k < bs.length := by
    by_contra hn
    rw [List.getElem?_eq_none (by omega)] at hb
    cases hb
  obtain ⟨h1, h2⟩ := h k hk
  rw [getByte_of_lt h2, h1, List.getD_eq_getElem?_getD, hb]
  rfl

theorem reads {m : Memory} {a : Nat} {b : Byte} (h : a < m.size ∧ lookupCell m.cells a = b) : m.getByte a = .ok b := by
  rw [getByte_of_lt h.1, h.2]

/-- An 8-bit ADC of 0xFF at the instruction address. -/
def sAdc8 : State := st full 0x0010 0x21 0x7E 0x8000 [(0x808000, 0x69), (0x808001, 0xFF)]
/-- A 16-bit ADC of 0xFFFF. -/
def sAdc16 : State := st full 0x1234 0x01 0x7E 0x8000 [(0x808000, 0x69), (0x808001, 0xFF), (0x808002, 0xFF)]
/-- ADC absolute at 7E:FFFF, in 8-bit and 16-bit mode. -/
def sAbs (p : Byte) : State :=
  st full 0x0001 p 0x7E 0x8000
    [(0x7EFFFF, 0x40), (0x7F0000, 0x01), (0x808000, 0x6D), (0x808001, 0xFF), (0x808002, 0xFF)]
/-- ADC long at 7E:FFFF, in 8-bit and 16-bit mode. -/
def sLong (p : Byte) : State :=
  st full 0x0001 p 0x12 0x8000
    [(0x7EFFFF, 0x40), (0x7F0000, 0x01), (0x808000, 0x6F), (0x808001, 0x7E), (0x808002, 0xFF), (0x808003, 0xFF)]
/-- NOP at the last offset of bank 80. -/
def sNop : State := st full 0x0007 0x00 0 0xFFFF [(0x80FFFF, 0xEA)]
/-- The first unimplemented byte. -/
def sHalt : State := st full 0x0007 0x21 0 0x8000 [(0x808000, 0x01)]
/-- LDA in 8-bit mode whose operand byte is the first byte after the image. -/
def sShort : State := st 0x808001 0 0x20 0 0x8000 [(0x808000, 0xA9)]

theorem witness_wellFormed : (Instr.adcImm (.byte 0xFF)).wellFormed true = true ∧
    (Instr.adcImm (.word 0xFFFF)).wellFormed false = true ∧ (Instr.halt 0xFF).wellFormed true = true ∧
    (Instr.halt 0x01).wellFormed false = true := by decide

theorem witness_EncodeThenDecodeGivesInstruction : ∃ m i, Instr.wellFormed m i = true :=
  ⟨true, .halt 0xFF, witness_wellFormed.2.2.1⟩

theorem witness_DecodeThenEncodeGivesBytes :
    decode false [0x6F, 0xFF, 0xFE, 0xFF, 0x00] = .ok (.adcLong 0xFF 0xFFFE, [0x00]) := by rfl

theorem witness_OpcodeTableEntries : (0xFF : Byte) ∉ [0x69, 0x6D, 0x6F, 0xA9, 0xEA, 0x00, 0xDB] ∧
    (0x01 : Byte) ∉ [0x69, 0x6D, 0x6F, 0xA9, 0xEA, 0x00, 0xDB] := by decide

theorem witness_AssemblerTextReadsBack : (Instr.halt 0xFF).wellFormed true = true ∧ Instr.halt 0xFF ≠ .stp00 := by decide

theorem witness_StepRunsDecodedInstruction :
    (Instr.adcImm (.byte 0xFF)).wellFormed (accIs8 sAdc8.regs) = true ∧
      BytesAt sAdc8 (encode (.adcImm (.byte 0xFF))) :=
  ⟨by decide, bytesAt_of (by decide)⟩

/-- A step that runs, and one that halts, with their opcodes. -/
theorem witness_step_running : OpcodeIs sNop 0xEA ∧ ¬ Halts 0xEA ∧ (opcodeTable 0xEA).tag ≠ .adc ∧
    (opcodeTable 0xEA).tag ≠ .lda ∧ ∃ t, step sNop = .next t :=
  ⟨rfl, by unfold Halts; decide, by decide, by decide, _, rfl⟩

theorem witness_step_halting : OpcodeIs sHalt 0x01 ∧ Halts 0x01 ∧
    ∃ t, step sHalt = .next t ∧ t.out = .halted 3 :=
  ⟨rfl, by unfold Halts; decide, _, rfl, rfl⟩

theorem witness_StepAdvancesPcByClassLength : (∃ t, OpcodeIs sNop 0xEA ∧ step sNop = .next t ∧ ¬ Halts 0xEA) ∧
    (∃ t, OpcodeIs sHalt 0x01 ∧ step sHalt = .next t ∧ Halts 0x01) :=
  ⟨witness_step_running.2.2.2.2.imp fun _ h => ⟨rfl, h, witness_step_running.2.1⟩,
    witness_step_halting.2.2.imp fun _ h => ⟨rfl, h.1, witness_step_halting.2.1⟩⟩

theorem witness_StepReportsCycleCount : (∃ t, OpcodeIs sNop 0xEA ∧ step sNop = .next t ∧ ¬ Halts 0xEA) ∧
    (∃ t, OpcodeIs sHalt 0x01 ∧ step sHalt = .next t ∧ Halts 0x01) := witness_StepAdvancesPcByClassLength

theorem witness_StepLeavesInertStateAndMemory : ∃ t, step sNop = .next t := witness_step_running.2.2.2.2

theorem witness_OnlyAdcAndLdaWriteAccumulatorAndFlags : ∃ t, OpcodeIs sNop 0xEA ∧ step sNop = .next t ∧
    (opcodeTable 0xEA).tag ≠ .adc ∧ (opcodeTable 0xEA).tag ≠ .lda :=
  witness_step_running.2.2.2.2.imp fun _ h => ⟨rfl, h, by decide, by decide⟩

theorem witness_StepAfterHaltHaltsAgain : ∃ t, step sHalt = .next t ∧ t.out = .halted 3 := witness_step_halting.2.2

theorem witness_InertRegistersAreNeverRead : (∃ t, step sNop = .next t) ∧ ∃ f, step sShort = .fault f :=
  ⟨witness_step_running.2.2.2.2, _, rfl⟩

theorem witness_IrqDecimalIndexFlagsAreNeverRead : Flag.decimal ∈ [Flag.irqDisable, .decimal, .indexSize] ∧
    (∃ t, step sAdc8 = .next t) ∧ ∃ f, step sShort = .fault f := ⟨by decide, ⟨_, rfl⟩, _, rfl⟩

theorem witness_StepCompletesWithoutDataRead : OpcodeIs sAdc8 0x69 ∧ (0x69 : Byte) ≠ 0x6D ∧ (0x69 : Byte) ≠ 0x6F ∧
    (instrAddr sAdc8.regs).toNat + (opcodeTable 0x69).cls.operandBytes (accIs8 sAdc8.regs) < sAdc8.mem.size :=
  ⟨rfl, by decide⟩

theorem witness_NopAtBankEndWrapsInsideBank : sNop.regs.pc = 0xFFFF ∧ OpcodeIs sNop 0xEA := ⟨rfl, rfl⟩

theorem witness_OpcodeFetchOutOfBoundsFaults :
    (st 0x808000 0 0 0 0x8000 []).mem.size ≤ (instrAddr (st 0x808000 0 0 0 0x8000 []).regs).toNat := by decide

theorem witness_OperandFetchOutOfBoundsFaults : OpcodeIs sShort 0xA9 ∧
    FirstOutOfBounds sShort.mem ((instrAddr sShort.regs).toNat + 1)
      ((opcodeTable 0xA9).cls.operandBytes (accIs8 sShort.regs)) 0 :=
  ⟨rfl, by decide, by decide, fun _ h => absurd h (Nat.not_lt_zero _)⟩

theorem witness_EveryFaultIsOutOfBounds : (∃ f, step sShort = .fault f) ∧
    (∃ f, step (st 0x8000 0 0 0 0x8000 []) = .fault f) ∧
    ∃ f, step { sAbs 0x20 with mem := { (sAbs 0x20).mem with size := 0x7EFFFF } } = .fault f := ⟨⟨_, rfl⟩, ⟨_, rfl⟩, _, rfl⟩

theorem witness_AdcCarryInOnAllOnesKeepsAccumulator :
    (InvM sAdc8.regs ∧ accIs8 sAdc8.regs = true ∧ getFlag .carry sAdc8.regs = true) ∧
    (accIs8 sAdc16.regs = false ∧ getFlag .carry sAdc16.regs = true) := by unfold InvM; decide

theorem witness_AdcIn8BitModeIgnoresHighByte :
    accIs8 sAdc8.regs = true ∧ (0xFF80 : Word).toNat % 256 = (0x0080 : Word).toNat % 256 := by decide

theorem witness_AdcImmediateCompletes :
    (accIs8 sAdc8.regs = true ∧ BytesAt sAdc8 [0x69, 0xFF]) ∧ (accIs8 sAdc16.regs = false ∧ BytesAt sAdc16 [0x69, 0xFF, 0xFF]) :=
  ⟨⟨by decide, bytesAt_of (by decide)⟩, ⟨by decide, bytesAt_of (by decide)⟩⟩

theorem witness_AdcAbsoluteCompletes :
    (accIs8 (sAbs 0x20).regs = true ∧
      (sAbs 0x20).mem.getByte ((sAbs 0x20).regs.dbr.toNat * 65536 + ((0xFF : Byte).toNat + 256 * (0xFF : Byte).toNat)) =
        .ok 0x40 ∧ BytesAt (sAbs 0x20) [0x6D, 0xFF, 0xFF]) ∧
    (accIs8 (sAbs 0x00).regs = false ∧
      (sAbs 0x00).mem.getByte ((sAbs 0x00).regs.dbr.toNat * 65536 + ((0xFF : Byte).toNat + 256 * (0xFF : Byte).toNat)) =
        .ok 0x40 ∧
      (sAbs 0x00).mem.getByte ((sAbs 0x00).regs.dbr.toNat * 65536 + ((0xFF : Byte).toNat + 256 * (0xFF : Byte).toNat) + 1) =
        .ok 0x01 ∧ BytesAt (sAbs 0x00) [0x6D, 0xFF, 0xFF]) :=
  ⟨⟨by decide, reads (by decide), bytesAt_of (by decide)⟩,
    ⟨by decide, reads (by decide), reads (by decide), bytesAt_of (by decide)⟩⟩

/-- First data byte out of bounds in 8-bit mode, second in 16-bit mode. -/
theorem witness_AdcAbsoluteDataOutOfBoundsFaults :
    FirstOutOfBounds { size := 0x7EFFFF, cells := [] } ((sAbs 0x20).regs.dbr.toNat * 65536 + (0xFFFF : Word).toNat)
      (if accIs8 (sAbs 0x20).regs then 1 else 2) 0 ∧
    FirstOutOfBounds { size := 0x7F0000, cells := [] } ((sAbs 0x00).regs.dbr.toNat * 65536 + (0xFFFF : Word).toNat)
      (if accIs8 (sAbs 0x00).regs then 1 else 2) 1 := by unfold FirstOutOfBounds; decide

theorem witness_AdcLongCompletes :
    (accIs8 (sLong 0x20).regs = true ∧
      (sLong 0x20).mem.getByte ((0x7E : Byte).toNat * 65536 + ((0xFF : Byte).toNat + 256 * (0xFF : Byte).toNat)) =
        .ok 0x40 ∧ BytesAt (sLong 0x20) [0x6F, 0x7E, 0xFF, 0xFF]) ∧
    (accIs8 (sLong 0x00).regs = false ∧
      (sLong 0x00).mem.getByte ((0x7E : Byte).toNat * 65536 + ((0xFF : Byte).toNat + 256 * (0xFF : Byte).toNat)) =
        .ok 0x40 ∧
      (sLong 0x00).mem.getByte ((0x7E : Byte).toNat * 65536 + ((0xFF : Byte).toNat + 256 * (0xFF : Byte).toNat) + 1) =
        .ok 0x01 ∧ BytesAt (sLong 0x00) [0x6F, 0x7E, 0xFF, 0xFF]) :=
  ⟨⟨by decide, reads (by decide), bytesAt_of (by decide)⟩,
    ⟨by decide, reads (by decide), reads (by decide), bytesAt_of (by decide)⟩⟩

theorem witness_AdcLongDataOutOfBoundsFaults :
    FirstOutOfBounds { size := 0xFFFFFF, cells := [] } ((0xFF : Byte).toNat * 65536 + (0xFFFF : Word).toNat)
      (if accIs8 (sLong 0x20).regs then 1 else 2) 0 ∧
    FirstOutOfBounds { size := full, cells := [] } ((0xFF : Byte).toNat * 65536 + (0xFFFF : Word).toNat)
      (if accIs8 (sLong 0x00).regs then 1 else 2) 1 := by unfold FirstOutOfBounds; decide

theorem witness_LdaImmediateCompletes :
    (accIs8 (st full 0 0x20 0 0x8000 [(0x808000, 0xA9)]).regs = true ∧
      BytesAt (st full 0 0x20 0 0x8000 [(0x808000, 0xA9)]) [0xA9, 0x00]) ∧
    (accIs8 (st full 0 0x00 0 0x8000 [(0x808000, 0xA9), (0x808002, 0x80)]).regs = false ∧
      BytesAt (st full 0 0x00 0 0x8000 [(0x808000, 0xA9), (0x808002, 0x80)]) [0xA9, 0x00, 0x80]) :=
  ⟨⟨by decide, bytesAt_of (by decide)⟩, ⟨by decide, bytesAt_of (by decide)⟩⟩

theorem witness_NopCompletes : BytesAt sNop [0xEA] := bytesAt_of (by decide)

theorem witness_StpCompletes : BytesAt (st full 0 0 0 0x8000 []) [0x00] ∧
    BytesAt (st full 0 0 0 0x8000 [(0x808000, 0xDB)]) [0xDB] := ⟨bytesAt_of (by decide), bytesAt_of (by decide)⟩

theorem witness_HaltCompletes :
    (0x01 : Byte) ∉ [0x00, 0x69, 0x6D, 0x6F, 0xA9, 0xDB, 0xEA] ∧ OpcodeIs sHalt 0x01 := ⟨by decide, rfl⟩

theorem witness_FlagOperationsSetClearGet : InvM sAdc8.regs ∧ accIs8 sAdc8.regs = true := by unfold InvM; decide

theorem witness_PortReadAfterWrite : RegName.A ≠ .P ∧ RegName.P ≠ .A := by decide

/-- The last byte of an image in bounds, the first out of bounds, and a word across the end. -/
theorem witness_ByteAndWordReads :
    let m : Memory := { size := 0x810000, cells := [(0x80FFFE, 0x34), (0x80FFFF, 0x12)] }
    (0x80FFFF < m.size ∧ m.size ≤ 0x80FFFF + 1) ∧ m.size ≤ 0x810000 ∧ m.getByte 0x80FFFE = .ok 0x34 ∧
      m.getByte (0x80FFFE + 1) = .ok 0x12 := ⟨by decide, by decide, rfl, rfl⟩

theorem witness_WrittenByteIsReadBack : sAdc8.mem.wf = true ∧ sAdc8.mem.size ≤ 0x1000000 ∧ 0xFFFFFF < sAdc8.mem.size := by
  decide

theorem witness_WrittenWordIsReadBack : sAdc8.mem.wf = true ∧ FirstOutOfBounds sAdc8.mem 0x1000000 2 0 ∧
    FirstOutOfBounds sAdc8.mem 0xFFFFFF 2 1 ∧ 0xFFFFFE + 1 < sAdc8.mem.size := by unfold FirstOutOfBounds; decide

theorem witness_EqualReadsMakeEqualMemories : sAdc8.mem.wf = true ∧ ∀ a, sAdc8.mem.getByte a = sAdc8.mem.getByte a :=
  ⟨by decide, fun _ => rfl⟩

theorem witness_LoadedImageIsRead : 1 ≤ [0xEA].length ∧ [(0xEA : Byte)].length ≤ Config.addressSpace ∧
    [(0xEA : Byte)][0]? = some 0xEA ∧ [(0xEA : Byte)].length ≤ 1 := by decide

theorem witness_HostStoreIsFetchedByNextStep : sHalt.mem.wf = true ∧ Halts 0x00 ∧
    (∃ t, (HostAction.storeByte (instrAddr sHalt.regs).toNat 0x00).apply sHalt = .ok t) ∧
    ∃ t, (HostAction.storeByte (instrAddr sHalt.regs).toNat 0xEA).apply sHalt = .ok t :=
  ⟨by decide, by unfold Halts; decide, ⟨_, rfl⟩, _, rfl⟩

theorem witness_FirstStepAfterResetFetchesEntryPoint : (st 0x808000 0 0 0 0 []).mem.size ≤ 0x808000 ∧
    (st 0x808001 0 0 0 0 [(0x808000, 0xEA)]).mem.getByte 0x808000 = .ok 0xEA := ⟨by decide, rfl⟩

theorem witness_RunEndIsFinal : (∃ t, runFrom 1 0 sHalt = .halted t 3) ∧
    ∃ f, runFrom 1 0 sShort = .faulted sShort f 0 := ⟨⟨_, rfl⟩, _, rfl⟩

theorem witness_ResetSatisfiesInvariant : sAdc8.mem.wf = true := by decide

theorem witness_EveryStepKeepsInvariant : Inv sAdc8 ∧ ∃ t, step sAdc8 = .next t :=
  ⟨⟨witness_FlagOperationsSetClearGet.1, by decide⟩, _, rfl⟩

theorem witness_EveryHostActionKeepsInvariant : Inv sAdc8 ∧ ∃ t, (HostAction.setFlag .accSize).apply sAdc8 = .ok t :=
  ⟨witness_EveryStepKeepsInvariant.1, _, rfl⟩

theorem witness_ReachableStatesSatisfyInvariant : Reachable (boot Config.resetParams [0xEA]) :=
  .boot _ _ (by decide) (by decide)

end Sys2Proof.Tests
end

section
/-! PROOFS. Further laws of the flags and of the register record (spec/10_state.md R27 to R34): a flag's write and its
read, and what the register port leaves. -/

namespace Sys2Proof.Machine

/-! ### Flags -/

/-- Writing a flag with the value it has changes nothing. -/
theorem withFlag_self {p : Byte} {f : Flag} {v : Bool} (h : flagOf p f = v) : withFlag p f v = p := by
  refine status_ext fun g => ?_
  rw [flagOf_withFlag]
  split
  · next hg => rw [hg, h]
  · rfl

/-- Writes of two different flags commute. -/
theorem withFlag_comm {f g : Flag} (h : f ≠ g) (p : Byte) (v w : Bool) :
    withFlag (withFlag p f v) g w = withFlag (withFlag p g w) f v := by
  refine status_ext fun k => ?_
  simp only [flagOf_withFlag]
  by_cases hk : k = g
  · simp [hk, h.symm]
  · simp [hk]

/-- A flag that ADC does not write may be written before or after it (R112). -/
theorem withAdcFlags_withFlag {f : Flag} (h : f ∉ adcFlagList) (p : Byte) (u c v n z : Bool) :
    withAdcFlags (withFlag p f u) c v n z = withFlag (withAdcFlags p c v n z) f u := by
  obtain ⟨hc, hv, hn, hz⟩ : f ≠ .carry ∧ f ≠ .overflow ∧ f ≠ .negative ∧ f ≠ .zero := by
    simpa [adcFlagList] using h
  simp only [withAdcFlags]
  rw [withFlag_comm hc, withFlag_comm hv, withFlag_comm hn, withFlag_comm hz]

/-- The flags of a byte given as a number are the number's bits. -/
theorem flagOf_ofNat (v : Nat) (f : Flag) : flagOf (BitVec.ofNat 8 v) f = v.testBit f.bit := by
  rw [flagOf, BitVec.getLsbD_ofNat]
  simp [f.bit_lt]

theorem getFlag_setFlag (f g : Flag) (r : CpuRegisters) :
    getFlag g (setFlag f r) = if g = f then true else getFlag g r := by
  rw [getFlag, setFlag_p, flagOf_withFlag, getFlag]

theorem getFlag_clearFlag (f g : Flag) (r : CpuRegisters) :
    getFlag g (clearFlag f r) = if g = f then false else getFlag g r := by
  rw [getFlag, clearFlag_p, flagOf_withFlag, getFlag]

/-- A word cut to its low byte, as a number. -/
theorem zext16_loByte_toNat (w : Word) : (zext16 (loByte w)).toNat = w.toNat % 256 := by
  rw [zext16_toNat, loByte_toNat]

theorem zext16_loByte_of_lt {w : Word} (h : w.toNat < 256) : zext16 (loByte w) = w :=
  BitVec.eq_of_toNat_eq (by rw [zext16_loByte_toNat, Nat.mod_eq_of_lt h])

theorem setFlag_a_toNat (f : Flag) (r : CpuRegisters) :
    (setFlag f r).a.toNat = if f = .accSize then r.a.toNat % 256 else r.a.toNat := by
  rw [setFlag_a, apply_ite BitVec.toNat, zext16_loByte_toNat]

/-- Under INV-M a second `set_flag(AccSize)` changes nothing (R30, R32). -/
theorem setFlag_accSize_self {r : CpuRegisters} (hinv : InvM r) (h8 : accIs8 r = true) : setFlag .accSize r = r := by
  have hp : withFlag r.p .accSize true = r.p := withFlag_self h8
  have ha : zext16 (loByte r.a) = r.a := zext16_loByte_of_lt (hinv h8)
  rw [setFlag, hp, ha]

theorem setFlag_keepsInertRegs (f : Flag) (r : CpuRegisters) : KeepsInertRegs r (setFlag f r) := by
  simp [KeepsInertRegs]

theorem clearFlag_keepsInertRegs (f : Flag) (r : CpuRegisters) : KeepsInertRegs r (clearFlag f r) := by
  simp [KeepsInertRegs]

theorem KeepsInertRegs.refl (r : CpuRegisters) : KeepsInertRegs r r := ⟨rfl, rfl, rfl, rfl, rfl, rfl⟩

theorem KeepsInertRegs.trans {r₁ r₂ r₃ : CpuRegisters} (h : KeepsInertRegs r₁ r₂) (h' : KeepsInertRegs r₂ r₃) :
    KeepsInertRegs r₁ r₃ := by
  obtain ⟨hx, hy, hs, hdp, hdbr, hpbr⟩ := h
  obtain ⟨hx', hy', hs', hdp', hdbr', hpbr'⟩ := h'
  exact ⟨hx'.trans hx, hy'.trans hy, hs'.trans hs, hdp'.trans hdp, hdbr'.trans hdbr, hpbr'.trans hpbr⟩

theorem adcCore_keepsInertRegs (v : Word) (r : CpuRegisters) : KeepsInertRegs r (adcCore v r) := by
  simp [KeepsInertRegs]

theorem ldaCore_keepsInertRegs (v : Word) (r : CpuRegisters) : KeepsInertRegs r (ldaCore v r) := by
  simp [KeepsInertRegs]

/-! ### A write of `P` through the register port (R38): one `set_flag` or `clear_flag` per bit -/

/-- One bit of a port write of `P` reads back, and the other flags are as before. -/
theorem getFlag_writeFlagOf (v : Nat) (r : CpuRegisters) (f g : Flag) :
    getFlag g (writeFlagOf v r f) = if g = f then v.testBit g.bit else getFlag g r := by
  unfold writeFlagOf
  by_cases hg : g = f
  · subst hg
    split <;> simp_all [getFlag_setFlag, getFlag_clearFlag]
  · split <;> simp [getFlag_setFlag, getFlag_clearFlag, hg]

theorem getFlag_foldl_writeFlagOf (v : Nat) (g : Flag) (fs : List Flag) (r : CpuRegisters) :
    getFlag g (fs.foldl (writeFlagOf v) r) = if g ∈ fs then v.testBit g.bit else getFlag g r := by
  induction fs generalizing r with
  | nil => simp
  | cons f fs ih =>
    rw [List.foldl_cons, ih, getFlag_writeFlagOf]
    by_cases hg : g = f <;> simp [hg]

theorem Flag.mem_all (f : Flag) : f ∈ Flag.all := by cases f <;> decide

/-- After a port write of `P` every flag reads its own bit of the value written. -/
theorem getFlag_writeP (v : Nat) (g : Flag) (r : CpuRegisters) : getFlag g (writeP v r) = v.testBit g.bit := by
  rw [writeP, getFlag_foldl_writeFlagOf, if_pos g.mem_all]

theorem writeP_p (v : Nat) (r : CpuRegisters) : (writeP v r).p = BitVec.ofNat 8 v :=
  status_ext fun g => (getFlag_writeP v g r).trans (flagOf_ofNat v g).symm

theorem writeFlagOf_a_toNat (v : Nat) (r : CpuRegisters) (f : Flag) :
    (writeFlagOf v r f).a.toNat = if f = .accSize ∧ v.testBit f.bit then r.a.toNat % 256 else r.a.toNat := by
  unfold writeFlagOf
  split
  · next hv => simp [setFlag_a_toNat, hv]
  · next hv => simp [hv]

/-- A port write of `P` truncates `A` exactly when it sets AccSize, bit 5 (R38). -/
theorem writeP_a_toNat (v : Nat) (r : CpuRegisters) :
    (writeP v r).a.toNat = if v.testBit 5 then r.a.toNat % 256 else r.a.toNat := by
  simp [writeP, Flag.all, Flag.bit, writeFlagOf_a_toNat]

/-- What every `set_flag` and `clear_flag` keeps, a port write of `P` keeps. -/
theorem writeP_induction {motive : CpuRegisters → Prop} (hset : ∀ f r, motive r → motive (setFlag f r))
    (hclear : ∀ f r, motive r → motive (clearFlag f r)) (v : Nat) {r : CpuRegisters} (h : motive r) :
    motive (writeP v r) := by
  refine List.foldlRecOn Flag.all (writeFlagOf v) h fun r hr f _ => ?_
  unfold writeFlagOf
  split
  · exact hset f r hr
  · exact hclear f r hr

theorem writeP_keepsInertRegs (v : Nat) (r : CpuRegisters) : KeepsInertRegs r (writeP v r) :=
  writeP_induction (motive := KeepsInertRegs r) (fun f r' h => h.trans (setFlag_keepsInertRegs f r'))
    (fun f r' h => h.trans (clearFlag_keepsInertRegs f r')) v (.refl r)

theorem writeP_pc (v : Nat) (r : CpuRegisters) : (writeP v r).pc = r.pc :=
  writeP_induction (motive := fun r' => r'.pc = r.pc) (fun f r' h => (setFlag_pc r' f).trans h)
    (fun f r' h => (clearFlag_pc r' f).trans h) v rfl

/-! ### A write of another register through the port (R38) -/

/-- In 8-bit mode the port stores the low byte of what is written to `A`, else all 16 bits (R38). -/
theorem writeA_a_toNat (v : Nat) (r : CpuRegisters) :
    (writeA v r).a.toNat = if accIs8 r = true then v % 256 else v % 65536 := by
  unfold writeA
  split
  · simp only [zext16_toNat, BitVec.toNat_ofNat]
  · simp only [BitVec.toNat_ofNat]

theorem readReg_writeReg_same {n : RegName} (v : Nat) (r : CpuRegisters) (hn : n ≠ .P) :
    readReg n (writeReg n v r) =
      if n = .DBR ∨ n = .PBR ∨ (n = .A ∧ accIs8 r = true) then v % 256 else v % 65536 := by
  cases n with
  | A => simpa [readReg, writeReg] using writeA_a_toNat v r
  | P => exact absurd rfl hn
  | X | Y | S | DBR | PBR | DP | PC => simp [readReg, writeReg]

/-- A register but `P` is one field of the record, so that its write leaves the other eight. -/
theorem readReg_writeReg_ne {n n' : RegName} (v : Nat) (r : CpuRegisters) (hn : n ≠ .P) (hne : n' ≠ n) :
    readReg n' (writeReg n v r) = readReg n' r := by
  cases n with
  | P => exact absurd rfl hn
  | A | X | Y | S | DBR | PBR | DP | PC => cases n' <;> first | rfl | exact absurd rfl hne

end Sys2Proof.Machine
end

section
/-! PROOFS. What a step that answers a next state has done to the register record, with the opcode byte and the tag of
the entry it ran (spec/40_pipeline.md R85 to R102). -/

namespace Sys2Proof.Machine

theorem fetchOpcode_ok {s : State} {op : Byte} : fetchOpcode s = .ok op ↔ OpcodeIs s op := labelled_ok

/-- A state has at most one next opcode byte. -/
theorem OpcodeIs.unique {s : State} {op op' : Byte} (h : OpcodeIs s op) (h' : OpcodeIs s op') : op = op' :=
  Except.ok.inj (h.symm.trans h')

/-- The instruction a step runs has the opcode byte fetched, and the width `P.M` selects (R90, R91). -/
theorem step_next_instr {s t : State} (h : step s = .next t) :
    ∃ i : Instr, OpcodeIs s i.opcode ∧ i.wellFormed (accIs8 s.regs) = true ∧ exec i s = .next t := by
  obtain ⟨op, i, hop, hi, hexec⟩ := step_next h
  obtain ⟨rfl, hwf, -⟩ := decodeOp_ok.mp hi
  exact ⟨i, fetchOpcode_ok.mp hop, hwf, hexec⟩

/-- The register record `r'` after a completed instruction of the given tag, from the record `r`: but for `PC`, it is
`r` itself, or LDA's, or ADC's (R96, R97). -/
def RegsAfter (tag : Tag) (r r' : CpuRegisters) : Prop :=
  ∃ c : CpuRegisters, r' = { c with pc := r'.pc } ∧
    (c = r ∨ (tag = .lda ∧ ∃ v, c = ldaCore v r) ∨ (tag = .adc ∧ ∃ v, c = adcCore v r))

theorem exec_next_regsAfter {i : Instr} {s t : State} (h : exec i s = .next t) :
    t.mem = s.mem ∧ RegsAfter (opcodeTable i.opcode).tag s.regs t.regs := by
  obtain ⟨-, rfl⟩ | ⟨r, n, rfl, hr⟩ := exec_next h
  · exact ⟨rfl, s.regs, rfl, .inl rfl⟩
  refine ⟨rfl, r, rfl, ?_⟩
  obtain ⟨-, hr, -⟩ | ⟨imm, rfl, hr, -⟩ | ⟨v, hr, ⟨imm, rfl, -⟩ | ⟨a, rfl, -⟩ | ⟨b, a, rfl, -⟩⟩ := hr
  · exact .inl hr
  · exact .inr (.inl ⟨rfl, _, hr⟩)
  · exact .inr (.inr ⟨rfl, v, hr⟩)
  · exact .inr (.inr ⟨rfl, v, hr⟩)
  · exact .inr (.inr ⟨rfl, v, hr⟩)

/-- All a step that answers a next state can do: memory stays, and the registers are those of the entry's tag. -/
theorem step_next_regsAfter {s t : State} (h : step s = .next t) :
    ∃ op, OpcodeIs s op ∧ t.mem = s.mem ∧ RegsAfter (opcodeTable op).tag s.regs t.regs := by
  obtain ⟨i, hop, -, hexec⟩ := step_next_instr h
  exact ⟨_, hop, exec_next_regsAfter hexec⟩

section
variable {tag : Tag} {r r' : CpuRegisters}

/-- A property of the new registers that does not read `PC` has three cases: nothing done, LDA, ADC. -/
theorem RegsAfter.elim {motive : CpuRegisters → Prop} (h : RegsAfter tag r r')
    (hpc : ∀ c pc, motive c → motive { c with pc := pc }) (hsame : motive r)
    (hlda : tag = .lda → ∀ v, motive (ldaCore v r)) (hadc : tag = .adc → ∀ v, motive (adcCore v r)) : motive r' := by
  obtain ⟨c, hr', rfl | ⟨htag, v, rfl⟩ | ⟨htag, v, rfl⟩⟩ := h
  · exact hr' ▸ hpc _ _ hsame
  · exact hr' ▸ hpc _ _ (hlda htag v)
  · exact hr' ▸ hpc _ _ (hadc htag v)

theorem RegsAfter.keepsInertRegs (h : RegsAfter tag r r') : KeepsInertRegs r r' :=
  h.elim (motive := KeepsInertRegs r) (fun _ _ => id) (.refl r) (fun _ v => ldaCore_keepsInertRegs v r)
    (fun _ v => adcCore_keepsInertRegs v r)

theorem ldaCore_keepsFlagsBut_zero (v : Word) (r : CpuRegisters) : KeepsFlagsBut [.zero] r (ldaCore v r) :=
  fun _ hg => ldaCore_flag_other v r (by simpa using hg)

theorem adcCore_keepsFlagsBut (v : Word) (r : CpuRegisters) : KeepsFlagsBut adcFlagList r (adcCore v r) :=
  fun _ hg => adcCore_flag_other v r hg

theorem KeepsFlagsBut.mono {fs gs : List Flag} (h : KeepsFlagsBut fs r r') (hsub : fs ⊆ gs) : KeepsFlagsBut gs r r' :=
  fun f hf => h f fun hmem => hf (hsub hmem)

theorem RegsAfter.keepsFlagsBut_adc (h : RegsAfter tag r r') : KeepsFlagsBut adcFlagList r r' :=
  h.elim (motive := KeepsFlagsBut adcFlagList r) (fun _ _ => id) (fun _ _ => rfl)
    (fun _ v => (ldaCore_keepsFlagsBut_zero v r).mono (by simp [adcFlagList])) (fun _ v => adcCore_keepsFlagsBut v r)

theorem RegsAfter.keepsFlagsBut_zero (h : RegsAfter tag r r') (hadc : tag ≠ .adc) : KeepsFlagsBut [.zero] r r' :=
  h.elim (motive := KeepsFlagsBut [.zero] r) (fun _ _ => id) (fun _ _ => rfl)
    (fun _ v => ldaCore_keepsFlagsBut_zero v r) (fun ht => absurd ht hadc)

theorem RegsAfter.a_p_eq (h : RegsAfter tag r r') (hadc : tag ≠ .adc) (hlda : tag ≠ .lda) : r'.a = r.a ∧ r'.p = r.p :=
  h.elim (motive := fun c => c.a = r.a ∧ c.p = r.p) (fun _ _ => id) ⟨rfl, rfl⟩ (fun ht => absurd ht hlda)
    (fun ht => absurd ht hadc)

end

end Sys2Proof.Machine
end

section
/-! PROOFS. INV-M, kept by every operation on the registers (spec/10_state.md R32, R33). -/

namespace Sys2Proof.Machine

theorem accIs8_adcCore (v : Word) (r : CpuRegisters) : accIs8 (adcCore v r) = accIs8 r :=
  adcCore_flag_other v r (by decide)

theorem accIs8_ldaCore (v : Word) (r : CpuRegisters) : accIs8 (ldaCore v r) = accIs8 r :=
  ldaCore_flag_other v r (by decide)

theorem zext16_toNat_lt (b : Byte) : (zext16 b).toNat < 256 := zext16_toNat b ▸ b.isLt

theorem adcCore8_a_toNat_lt (v : Word) (r : CpuRegisters) : (adcCore8 v r).a.toNat < 256 := by
  rw [show (adcCore8 v r).a = zext16 (loByte r.a + loByte (withCarryIn v r)) from rfl]
  exact zext16_toNat_lt _

theorem adcCore_invM (v : Word) (r : CpuRegisters) : InvM (adcCore v r) := by
  intro h8
  rw [accIs8_adcCore] at h8
  rw [adcCore, if_pos h8]
  exact adcCore8_a_toNat_lt v r

theorem ldaCore_invM (v : Word) (r : CpuRegisters) : InvM (ldaCore v r) := by
  intro h8
  rw [accIs8_ldaCore] at h8
  simp only [ldaCore, h8, if_true]
  exact zext16_toNat_lt _

theorem RegsAfter.invM {tag : Tag} {r r' : CpuRegisters} (h : RegsAfter tag r r') (hinv : InvM r) : InvM r' :=
  h.elim (motive := InvM) (fun _ _ => id) hinv (fun _ v => ldaCore_invM v r) (fun _ v => adcCore_invM v r)

theorem setFlag_invM (f : Flag) {r : CpuRegisters} (h : InvM r) : InvM (setFlag f r) := by
  intro h8
  rw [setFlag_a_toNat]
  split
  · exact Nat.mod_lt _ (by decide)
  · next hf =>
    rw [accIs8, getFlag_setFlag, if_neg (Ne.symm hf)] at h8
    exact h h8

theorem clearFlag_invM (f : Flag) {r : CpuRegisters} (h : InvM r) : InvM (clearFlag f r) := by
  intro h8
  rw [accIs8, getFlag_clearFlag] at h8
  split at h8
  · cases h8
  · exact h h8

theorem writeA_invM (v : Nat) (r : CpuRegisters) : InvM (writeA v r) := by
  intro h8
  have h8 : accIs8 r = true := h8
  rw [writeA, if_pos h8]
  exact zext16_toNat_lt _

/-- INV-M speaks of `A` and `P` only. -/
theorem InvM.of_a_p_eq {r r' : CpuRegisters} (h : InvM r) (ha : r'.a = r.a) (hp : r'.p = r.p) : InvM r' := by
  unfold InvM accIs8 getFlag
  rw [ha, hp]
  exact h

theorem writeReg_invM (n : RegName) (v : Nat) {r : CpuRegisters} (h : InvM r) : InvM (writeReg n v r) := by
  cases n with
  | A => exact writeA_invM v r
  | P => exact writeP_induction (motive := InvM) (fun f _ => setFlag_invM f) (fun f _ => clearFlag_invM f) v h
  | X | Y | S | DBR | PBR | DP | PC => exact h.of_a_p_eq rfl rfl

theorem except_map_ok {ε α β : Type} {x : Except ε α} {f : α → β} {b : β} (h : x.map f = .ok b) :
    ∃ a, x = .ok a ∧ f a = b := by
  cases x with
  | error e => cases h
  | ok a => exact ⟨a, rfl, Except.ok.inj h⟩

/-- A reset leaves 16-bit mode, where INV-M asks nothing (R35). -/
theorem reset_invM (rp : ResetParams) : InvM (CpuRegisters.reset rp) := by
  intro h8
  rw [accIs8, getFlag, reset_p] at h8
  exact absurd h8 (by decide)

theorem resetCore_inv (rp : ResetParams) {s : State} (hwf : s.mem.wf = true) : Inv (resetCore rp s) :=
  ⟨reset_invM rp, hwf⟩

end Sys2Proof.Machine
end

section
/-! PROOFS. Noninterference of a step: a change of the registers that leaves what a step reads and commutes with what a
step writes goes through the step unchanged (spec/10_state.md R22, R26, R29, R31, R34). -/

namespace Sys2Proof.Machine

/-- The change `f` of the register record is not seen by a step: it leaves the registers that addresses and widths come
from, and commutes with the three writes an instruction makes. -/
structure Unobserved (f : CpuRegisters → CpuRegisters) : Prop where
  pbr_eq : ∀ r, (f r).pbr = r.pbr
  pc_eq : ∀ r, (f r).pc = r.pc
  dbr_eq : ∀ r, (f r).dbr = r.dbr
  accIs8_eq : ∀ r, accIs8 (f r) = accIs8 r
  adcCore_comm : ∀ v r, adcCore v (f r) = f (adcCore v r)
  ldaCore_comm : ∀ v r, ldaCore v (f r) = f (ldaCore v r)
  advancePc_comm : ∀ n r, advancePc n (f r) = f (advancePc n r)

/-- The state with `f` applied to its registers and `o` as the recorded output. -/
def State.changed (f : CpuRegisters → CpuRegisters) (o : StepOutput) (s : State) : State :=
  { s with regs := f s.regs, out := o }

/-- The outcome with `f` applied to the registers of a next state; a fault stays. -/
def mapRegs (f : CpuRegisters → CpuRegisters) : Host.Outcome State Fault Refusal → Host.Outcome State Fault Refusal
  | .next t => .next { t with regs := f t.regs }
  | .fault e => .fault e
  | .refused r => .refused r

section
variable {f : CpuRegisters → CpuRegisters} (hf : Unobserved f) (o : StepOutput) (s : State)
include hf

theorem Unobserved.instrAddr_eq (r : CpuRegisters) : instrAddr (f r) = instrAddr r := by
  simp only [instrAddr, hf.pbr_eq, hf.pc_eq]

theorem Unobserved.effectiveAddr_eq (far : Option Byte) (offset : Word) (r : CpuRegisters) :
    effectiveAddr far offset (f r) = effectiveAddr far offset r := by
  cases far with
  | none => simp only [effectiveAddr, hf.dbr_eq]
  | some b => rfl

theorem Unobserved.readData_eq (r : CpuRegisters) (m : Memory) (ea : Addr) :
    readData (f r) m ea = readData r m ea := by
  simp only [readData, hf.accIs8_eq]

theorem Unobserved.immBase_eq (r : CpuRegisters) : immBase (f r) = immBase r := by
  simp only [immBase, hf.accIs8_eq]

theorem Unobserved.fetchByte_eq : fetchByte (s.changed f o) = fetchByte s := by
  funext ph k
  simp only [fetchByte, State.changed, hf.instrAddr_eq]

theorem Unobserved.fetchOpcode_eq : fetchOpcode (s.changed f o) = fetchOpcode s := by
  simp only [fetchOpcode, hf.fetchByte_eq]

theorem Unobserved.fetchOperands_eq (op : Byte) :
    fetchOperands (s.changed f o) op = fetchOperands s op := by
  rw [fetchOperands, hf.fetchByte_eq, State.changed, hf.accIs8_eq, fetchOperands]

theorem Unobserved.raiseFault_comm (op : Option Byte) (e : MemError) :
    raiseFault (s.changed f o) op e = mapRegs f (raiseFault s op e) := by
  simp only [raiseFault, mapRegs, State.changed, hf.instrAddr_eq]

theorem Unobserved.retire_comm (r : CpuRegisters) (nbytes : Nat) (n : BitVec 8) :
    retire (s.changed f o) (f r) nbytes n = mapRegs f (retire s r nbytes n) := by
  simp only [retire, mapRegs, State.changed, hf.advancePc_comm]

theorem Unobserved.adcFromMemory_comm (op : Byte) (far : Option Byte) (offset : Word) (nbytes : Nat) (base : BitVec 8) :
    adcFromMemory op far offset nbytes base (s.changed f o) =
      mapRegs f (adcFromMemory op far offset nbytes base s) := by
  have hread : readData (s.changed f o).regs (s.changed f o).mem
      (effectiveAddr far offset (s.changed f o).regs) =
        readData s.regs s.mem (effectiveAddr far offset s.regs) := by
    simp only [State.changed, hf.effectiveAddr_eq, hf.readData_eq]
  rw [adcFromMemory, adcFromMemory, hread]
  cases readData s.regs s.mem (effectiveAddr far offset s.regs) with
  | error e => exact hf.raiseFault_comm o s (some op) e
  | ok v =>
    change retire _ (adcCore v (f s.regs)) nbytes (base + zeroExtra v) = _
    rw [hf.adcCore_comm, hf.retire_comm]

theorem Unobserved.exec_comm (i : Instr) : exec i (s.changed f o) = mapRegs f (exec i s) := by
  cases i with
  | adcImm imm =>
    change retire _ (adcCore (immValue imm) (f s.regs)) imm.nbytes (immBase (f s.regs) + zeroExtra (immValue imm)) = _
    rw [hf.adcCore_comm, hf.immBase_eq, hf.retire_comm]
    rfl
  | ldaImm imm =>
    change retire _ (ldaCore (immValue imm) (f s.regs)) imm.nbytes (immBase (f s.regs)) = _
    rw [hf.ldaCore_comm, hf.immBase_eq, hf.retire_comm]
    rfl
  | adcAbs addr => exact hf.adcFromMemory_comm o s 0x6D none addr 2 4
  | adcLong bank addr => exact hf.adcFromMemory_comm o s 0x6F (some bank) addr 3 5
  | nop => exact hf.retire_comm o s s.regs 0 2
  | stp00 | stpDB | halt => rfl

/-- A step does the same whether an unobserved change is made before it or after it. -/
theorem Unobserved.step_comm : step (s.changed f o) = mapRegs f (step s) := by
  rw [step, step, hf.fetchOpcode_eq]
  cases fetchOpcode s with
  | error e => exact hf.raiseFault_comm o s none e
  | ok op =>
    simp only [hf.fetchOperands_eq]
    cases fetchOperands s op with
    | error e => exact hf.raiseFault_comm o s (some op) e
    | ok i => exact hf.exec_comm o s i

theorem Unobserved.step_next {t : State} (h : step s = .next t) :
    step (s.changed f o) = .next { t with regs := f t.regs } := by
  rw [hf.step_comm, h]; rfl

theorem Unobserved.step_fault {e : Fault} (h : step s = .fault e) :
    step (s.changed f o) = .fault e := by
  rw [hf.step_comm, h]; rfl

end

/-! ### The registers and flags a step does not observe -/

/-- `X`, `Y`, `S` and `DP` replaced by other values. -/
def withInertRegs (x y sp dp : Word) (r : CpuRegisters) : CpuRegisters :=
  { r with x := x, y := y, s := sp, dp := dp }

theorem withInertRegs_unobserved (x y sp dp : Word) : Unobserved (withInertRegs x y sp dp) where
  pbr_eq _ := rfl
  pc_eq _ := rfl
  dbr_eq _ := rfl
  accIs8_eq _ := rfl
  adcCore_comm _ _ := by rw [adcCore, adcCore, apply_ite (withInertRegs x y sp dp)]; rfl
  ldaCore_comm _ _ := rfl
  advancePc_comm _ _ := rfl

/-- A flag of `P` replaced by another value, with no effect on `A`. -/
def withStatusFlag (g : Flag) (u : Bool) (r : CpuRegisters) : CpuRegisters :=
  { r with p := withFlag r.p g u }

section
variable {g : Flag} (u : Bool)

theorem getFlag_withStatusFlag {k : Flag} (hk : k ≠ g) (r : CpuRegisters) :
    getFlag k (withStatusFlag g u r) = getFlag k r := by
  rw [getFlag, withStatusFlag, flagOf_withFlag, if_neg hk, getFlag]

/-- ADC reads Carry and AccSize only, and writes the four flags of `adcFlagList` (R105, R112, R115). -/
theorem adcCore_withStatusFlag (hg : g ∉ adcFlagList) (hm : g ≠ .accSize) (v : Word) (r : CpuRegisters) :
    adcCore v (withStatusFlag g u r) = withStatusFlag g u (adcCore v r) := by
  have h8 : accIs8 (withStatusFlag g u r) = accIs8 r := getFlag_withStatusFlag u hm.symm r
  have hcin : withCarryIn v (withStatusFlag g u r) = withCarryIn v r := by
    have hc : Flag.carry ≠ g := fun h => hg (by rw [← h]; decide)
    rw [withCarryIn, getFlag_withStatusFlag u hc, withCarryIn]
  have h8c : adcCore8 v (withStatusFlag g u r) = withStatusFlag g u (adcCore8 v r) := by
    unfold adcCore8
    rw [hcin]
    exact congrArg (fun p => { adcCore8 v r with p := p }) (withAdcFlags_withFlag hg ..)
  have h16c : adcCore16 v (withStatusFlag g u r) = withStatusFlag g u (adcCore16 v r) := by
    unfold adcCore16
    rw [hcin]
    exact congrArg (fun p => { adcCore16 v r with p := p }) (withAdcFlags_withFlag hg ..)
  rw [adcCore, h8, h8c, h16c, adcCore, apply_ite (withStatusFlag g u)]

/-- LDA reads AccSize only, and writes Zero only (R120, R121). -/
theorem ldaCore_withStatusFlag (hz : g ≠ .zero) (hm : g ≠ .accSize) (v : Word) (r : CpuRegisters) :
    ldaCore v (withStatusFlag g u r) = withStatusFlag g u (ldaCore v r) := by
  have h8 : accIs8 (withStatusFlag g u r) = accIs8 r := getFlag_withStatusFlag u hm.symm r
  simp only [ldaCore, h8]
  simp only [withStatusFlag, withFlag_comm hz]

/-- A flag other than AccSize that ADC does not write is not observed. -/
theorem withStatusFlag_unobserved (hg : g ∉ adcFlagList) (hm : g ≠ .accSize) : Unobserved (withStatusFlag g u) where
  pbr_eq _ := rfl
  pc_eq _ := rfl
  dbr_eq _ := rfl
  accIs8_eq r := getFlag_withStatusFlag u hm.symm r
  adcCore_comm v r := adcCore_withStatusFlag u hg hm v r
  ldaCore_comm v r := ldaCore_withStatusFlag u (fun h => hg (by rw [h]; decide)) hm v r
  advancePc_comm _ _ := rfl

end

end Sys2Proof.Machine
end

section
/-! PROOFS. The statements of spec/10_state.md settled. -/

namespace Sys2Proof.Machine

/-- Settles O13: replacing `X`, `Y`, `S`, `DP` and the output is a change that no step observes. -/
theorem inertRegistersAreNeverRead : Obligations.InertRegistersAreNeverRead := by
  intro s x y sp dp o
  have hf := withInertRegs_unobserved x y sp dp
  exact ⟨fun _ h => hf.step_next o s h, fun _ h => hf.step_fault o s h⟩

/-- Settles O14: a write of `P.I`, `P.D` or `P.X` is a change that no step observes. -/
theorem irqDecimalIndexFlagsAreNeverRead : Obligations.IrqDecimalIndexFlagsAreNeverRead := by
  intro s g u hg
  obtain ⟨hadc, hm⟩ : g ∉ adcFlagList ∧ g ≠ .accSize := by
    revert g
    decide
  have hf := withStatusFlag_unobserved u hadc hm
  exact ⟨fun _ h => hf.step_next s.out s h, fun _ h => hf.step_fault s.out s h⟩

/-- Settles O47: a step leaves memory alone, and ADC and LDA mask `A` in 8-bit mode. -/
theorem everyStepKeepsInvariant : Obligations.EveryStepKeepsInvariant := by
  rintro s t ⟨hinv, hwf⟩ h
  obtain ⟨op, -, hmem, hregs⟩ := step_next_regsAfter h
  exact ⟨hregs.invM hinv, hmem ▸ hwf⟩

/-- Settles O10, from what a step can do to the registers. -/
theorem stepLeavesInertStateAndMemory : Obligations.StepLeavesInertStateAndMemory := by
  intro s t h
  obtain ⟨op, -, hmem, hregs⟩ := step_next_regsAfter h
  exact ⟨hregs.keepsInertRegs, hregs.keepsFlagsBut_adc, hmem, fun a => by rw [hmem]⟩

/-- Settles O11, from what a step can do to the registers under the opcode's tag. -/
theorem onlyAdcAndLdaWriteAccumulatorAndFlags : Obligations.OnlyAdcAndLdaWriteAccumulatorAndFlags := by
  intro s t op hop h
  obtain ⟨op', hop', -, hregs⟩ := step_next_regsAfter h
  obtain rfl := hop.unique hop'
  exact ⟨hregs.keepsFlagsBut_zero, hregs.a_p_eq⟩

/-- Settles O33, one law of `set_flag` and `clear_flag` for each clause. -/
theorem flagOperationsSetClearGet : Obligations.FlagOperationsSetClearGet := by
  intro f g r
  refine ⟨rfl, ?_, ?_, setFlag_a_toNat f r, rfl, setFlag_accSize_self, setFlag_keepsInertRegs f r,
    clearFlag_keepsInertRegs f r, setFlag_pc r f, rfl⟩
  · rw [getFlag_setFlag]
    split <;> simp [*]
  · rw [getFlag_clearFlag]
    split <;> simp [*]

/-- Settles O34: the port writes `P` flag by flag, each from its own bit. -/
theorem portWriteOfStatusRegister : Obligations.PortWriteOfStatusRegister := by
  intro v r
  have hp : (writeP v r).p.toNat = v % 256 := by rw [writeP_p, BitVec.toNat_ofNat]
  have hflag (g : Flag) : getFlag g (writeP v r) = v.testBit g.bit := getFlag_writeP v g r
  exact ⟨hp, hflag .carry, hflag .zero, hflag .irqDisable, hflag .decimal, hflag .indexSize, hflag .accSize,
    hflag .overflow, hflag .negative, writeP_a_toNat v r, writeP_keepsInertRegs v r, writeP_pc v r⟩

/-- Settles O35: a written register reads back, and the others are as before. -/
theorem portReadAfterWrite : Obligations.PortReadAfterWrite := fun _ _ v r hn =>
  ⟨readReg_writeReg_same v r hn, readReg_writeReg_ne v r hn⟩

/-- Settles O48: the memory writes keep the canonical form, every register action keeps INV-M. -/
theorem everyHostActionKeepsInvariant : Obligations.EveryHostActionKeepsInvariant := by
  rintro a s t ⟨hinv, hwf⟩ h
  cases a with
  | reset rp => cases h; exact resetCore_inv rp hwf
  | storeByte addr v =>
    obtain ⟨m, hm, rfl⟩ := except_map_ok h
    exact ⟨hinv, write1_wf hwf hm⟩
  | storeWord addr v =>
    obtain ⟨m, hm, rfl⟩ := except_map_ok h
    exact ⟨hinv, write2_wf hwf hm⟩
  | writeReg n v => cases h; exact ⟨writeReg_invM n v hinv, hwf⟩
  | setFlag f => cases h; exact ⟨setFlag_invM f hinv, hwf⟩
  | clearFlag f => cases h; exact ⟨clearFlag_invM f hinv, hwf⟩

/-- Settles O49, by induction on how the state was reached. -/
theorem reachableStatesSatisfyInvariant : Obligations.ReachableStatesSatisfyInvariant := by
  intro s hs
  induction hs with
  | boot rp image hlo hhi => exact resetCore_inv rp (ofImage_wf image hlo hhi)
  | step _ h ih => exact everyStepKeepsInvariant _ _ ih h
  | host a _ h ih => exact everyHostActionKeepsInvariant a _ _ ih h

/-- Settles O46: a reset leaves 16-bit mode, and the empty full-size memory is canonical. -/
theorem resetSatisfiesInvariant : Obligations.ResetSatisfiesInvariant := by
  have hwf : State.reset.mem.wf = true := wf_iff.mpr ⟨by decide, Nat.le_refl _, rfl⟩
  exact ⟨⟨reset_invM Config.resetParams, hwf⟩, fun rp _ h => resetCore_inv rp h⟩

end Sys2Proof.Machine
end

section
/-! PROOFS. Further laws of memory (spec/20_memory.md R48 to R54): what a word read and a write answer, and that a
memory's reads determine its canonical form. -/

namespace Sys2Proof.Machine

/-! ### Word reads -/

/-- A word read answers exactly the two byte reads, little-endian (R49). -/
theorem getWord_ok {m : Memory} {a : Nat} {w : Word} :
    m.getWord a = .ok w ↔ m.getByte a = .ok (loByte w) ∧ m.getByte (a + 1) = .ok (hiByte w) :=
  resolveWordAt_ok

theorem getWord_of_le {m : Memory} {a : Nat} (h : m.size ≤ a) : m.getWord a = .error a := by
  rw [Memory.getWord, getByte_of_le h]
  rfl

/-- The low byte is in bounds, the high byte is not: the read names the high byte's address (R50). -/
theorem getWord_of_lt_of_le {m : Memory} {a : Nat} (h : a < m.size) (h' : m.size ≤ a + 1) :
    m.getWord a = .error (a + 1) := by
  rw [Memory.getWord, getByte_of_lt h, getByte_of_le h']
  rfl

/-! ### Writes, and reads after them -/

theorem write1_of_le {m : Memory} {a : Nat} (v : Byte) (h : m.size ≤ a) : m.write1 a v = .error ⟨.data, a⟩ := by
  obtain ⟨-, hx⟩ | ⟨hlt, -⟩ := write1_cases (m := m) (a := a) (v := v) rfl
  · exact hx
  · omega

theorem write1_of_lt {m : Memory} {a : Nat} (v : Byte) (h : a < m.size) : m.write1 a v = .ok (m.poke a v) := by
  obtain ⟨hle, -⟩ | ⟨-, hx⟩ := write1_cases (m := m) (a := a) (v := v) rfl
  · omega
  · exact hx

theorem write2_of_le {m : Memory} {a : Nat} (v : Word) (h : m.size ≤ a) : m.write2 a v = .error ⟨.data, a⟩ := by
  obtain ⟨-, hx⟩ | ⟨hlt, -⟩ | ⟨hlt, -⟩ := write2_cases (m := m) (a := a) (v := v) rfl
  · exact hx
  · omega
  · omega

/-- The low byte is in bounds, the high byte is not: the write names the high byte's address (R52). -/
theorem write2_of_lt_of_le {m : Memory} {a : Nat} (v : Word) (h : a < m.size) (h' : m.size ≤ a + 1) :
    m.write2 a v = .error ⟨.data, a + 1⟩ := by
  obtain ⟨hle, -⟩ | ⟨-, -, hx⟩ | ⟨hlt, -⟩ := write2_cases (m := m) (a := a) (v := v) rfl
  · omega
  · exact hx
  · omega

/-- A failing word write names the first of its two addresses that is out of bounds (R52). -/
theorem write2_of_firstOutOfBounds {m : Memory} {a k : Nat} (v : Word) (h : FirstOutOfBounds m a 2 k) :
    m.write2 a v = .error ⟨.data, a + k⟩ := by
  obtain ⟨hk, hout, hin⟩ := h
  obtain rfl | rfl : k = 0 ∨ k = 1 := by omega
  · exact write2_of_le v hout
  · exact write2_of_lt_of_le v (hin 0 Nat.one_pos) hout

/-- Two consecutive bytes, as a word write stores them. -/
def Memory.pokeWord (m : Memory) (a : Nat) (v : Word) : Memory := (m.poke a (loByte v)).poke (a + 1) (hiByte v)

theorem write2_of_lt {m : Memory} {a : Nat} (v : Word) (h : a + 1 < m.size) :
    m.write2 a v = .ok (m.pokeWord a v) := by
  obtain ⟨hle, -⟩ | ⟨-, hle, -⟩ | ⟨-, hx⟩ := write2_cases (m := m) (a := a) (v := v) rfl
  · omega
  · omega
  · exact hx

/-- Reading a byte after a word was stored, at any address. -/
theorem getByte_pokeWord {m : Memory} {a : Nat} (v : Word) (b : Nat) (hwf : m.wf = true) (h : a + 1 < m.size) :
    (m.pokeWord a v).getByte b =
      if b = a + 1 then .ok (hiByte v) else if b = a then .ok (loByte v) else m.getByte b := by
  have ha : a < m.size := by omega
  rw [Memory.pokeWord, getByte_poke _ b (poke_wf _ hwf ha) h, getByte_poke _ b hwf ha]

theorem getWord_pokeWord {m : Memory} {a : Nat} (v : Word) (hwf : m.wf = true) (h : a + 1 < m.size) :
    (m.pokeWord a v).getWord a = .ok v := by
  rw [getWord_ok, getByte_pokeWord v a hwf h, getByte_pokeWord v (a + 1) hwf h]
  simp

/-! ### The reads determine the canonical form (log 3) -/

theorem lookupCell_cons_self (k : Nat) (v : Byte) (rest : List Host.Cell) : lookupCell ((k, v) :: rest) k = v :=
  if_pos rfl

theorem lookupCell_cons_ne {k a : Nat} (v : Byte) (rest : List Host.Cell) (h : a ≠ k) :
    lookupCell ((k, v) :: rest) a = lookupCell rest a :=
  if_neg h.symm

/-- Nothing is listed from `size` on. -/
theorem lookupCell_of_size_le {lo size a : Nat} {cs : List Host.Cell} (h : canonicalFrom lo size cs = true)
    (ha : size ≤ a) : lookupCell cs a = Config.blankByte := by
  induction cs generalizing lo with
  | nil => rfl
  | cons c rest ih =>
    obtain ⟨k, v⟩ := c
    obtain ⟨-, hk, -, hrest⟩ := canonicalFrom_cons.mp h
    rw [lookupCell_cons_ne v rest (by omega)]
    exact ih hrest

/-- The first cell has the lowest address that does not read as blank. -/
theorem head_le_of_lookupCell_ne_blank {lo size k a : Nat} {v : Byte} {rest : List Host.Cell}
    (h : canonicalFrom lo size ((k, v) :: rest) = true) (ha : lookupCell ((k, v) :: rest) a ≠ Config.blankByte) :
    k ≤ a := by
  by_contra hlt
  exact ha (lookupCell_below (canonicalFrom_cons.mpr ⟨Nat.le_refl k, (canonicalFrom_cons.mp h).2⟩) (by omega))

/-- A canonical list with a cell reads as the cell's byte, not blank, at the cell's address. -/
theorem lookupCell_head_ne_blank {lo size k : Nat} {v : Byte} {rest : List Host.Cell}
    (h : canonicalFrom lo size ((k, v) :: rest) = true) : lookupCell ((k, v) :: rest) k ≠ Config.blankByte := by
  rw [lookupCell_cons_self]
  exact (canonicalFrom_cons.mp h).2.2.1

/-- Two canonical lists that begin with the same cell and read alike have tails that read alike: the tails list nothing
at the first cell's address. -/
theorem lookupCell_tail_eq {lo lo' size size' k : Nat} {v : Byte} {cs cs' : List Host.Cell}
    (h : canonicalFrom lo size ((k, v) :: cs) = true) (h' : canonicalFrom lo' size' ((k, v) :: cs') = true)
    (heq : ∀ a, lookupCell ((k, v) :: cs) a = lookupCell ((k, v) :: cs') a) (a : Nat) :
    lookupCell cs a = lookupCell cs' a := by
  obtain ⟨-, -, -, hcs⟩ := canonicalFrom_cons.mp h
  obtain ⟨-, -, -, hcs'⟩ := canonicalFrom_cons.mp h'
  by_cases ha : a = k
  · rw [lookupCell_below hcs (by omega), lookupCell_below hcs' (by omega)]
  · simpa only [lookupCell_cons_ne v _ ha] using heq a

/-- Canonical lists of cells are extensional. -/
theorem canonicalFrom_ext {lo lo' size size' : Nat} {cs cs' : List Host.Cell} (h : canonicalFrom lo size cs = true)
    (h' : canonicalFrom lo' size' cs' = true) (heq : ∀ a, lookupCell cs a = lookupCell cs' a) : cs = cs' := by
  induction cs generalizing lo lo' cs' with
  | nil =>
    cases cs' with
    | nil => rfl
    | cons c' rest' => exact absurd (heq c'.1).symm (lookupCell_head_ne_blank h')
  | cons c rest ih =>
    cases cs' with
    | nil => exact absurd (heq c.1) (lookupCell_head_ne_blank h)
    | cons c' rest' =>
      obtain ⟨k, v⟩ := c
      obtain ⟨k', v'⟩ := c'
      have hle : k ≤ k' := head_le_of_lookupCell_ne_blank h (heq k' ▸ lookupCell_head_ne_blank h')
      have hge : k' ≤ k := head_le_of_lookupCell_ne_blank h' (heq k ▸ lookupCell_head_ne_blank h)
      obtain rfl : k = k' := Nat.le_antisymm hle hge
      obtain rfl : v = v' := by simpa only [lookupCell_cons_self] using heq k
      rw [ih (canonicalFrom_cons.mp h).2.2.2 (canonicalFrom_cons.mp h').2.2.2 (lookupCell_tail_eq h h' heq)]

/-- What a read finds out of bounds bounds `MEM_SIZE`. -/
theorem size_le_of_getByte_eq {m m' : Memory} (h : ∀ a, m.getByte a = m'.getByte a) : m'.size ≤ m.size := by
  by_contra hlt
  have hm := h m.size
  rw [getByte_of_le (Nat.le_refl _), getByte_of_lt (by omega)] at hm
  cases hm

theorem lookupCell_eq_of_getByte_eq {m m' : Memory} (hwf : m.wf = true) (hwf' : m'.wf = true)
    (hsize : m.size = m'.size) (h : ∀ a, m.getByte a = m'.getByte a) (a : Nat) :
    lookupCell m.cells a = lookupCell m'.cells a := by
  by_cases ha : a < m.size
  · exact Except.ok.inj (by rw [← getByte_of_lt ha, ← getByte_of_lt (hsize ▸ ha), h])
  · rw [lookupCell_of_size_le (wf_iff.mp hwf).2.2 (by omega), lookupCell_of_size_le (wf_iff.mp hwf').2.2 (by omega)]

/-! ### Images -/

theorem getByte_ofImage {image : List Byte} {a : Nat} {b : Byte} (h : image[a]? = some b) :
    (Memory.ofImage image).getByte a = .ok b := by
  obtain ⟨hlt, -⟩ := List.getElem?_eq_some_iff.mp h
  have hcell := lookupCell_imageCells 0 a image
  rw [Nat.zero_add, List.getD_eq_getElem?_getD, h] at hcell
  rw [getByte_of_lt hlt]
  exact congrArg Except.ok hcell

end Sys2Proof.Machine
end

section
/-! PROOFS. The step of a state whose opcode byte takes no operand (spec/40_pipeline.md R93, spec/43_control.md). -/

namespace Sys2Proof.Machine

theorem step_of_fetched {s : State} {op : Byte} {i : Instr} (hop : OpcodeIs s op) (hi : fetchOperands s op = .ok i) :
    step s = exec i s := by
  rw [step, fetchOpcode_ok.mpr hop]
  simp only [hi]

/-- A halting byte has no operand to fetch: the step is the halt (R98, R127, R131). -/
theorem step_of_halts {s : State} {op : Byte} (hop : OpcodeIs s op) (h : Halts op) : step s = retireHalted s := by
  obtain hstp | hhalt := h
  · have hi : fetchOperands s op = .ok (stpOfOpcode op) := by simp only [fetchOperands, decodeOp, hstp]
    rw [step_of_fetched hop hi, stpOfOpcode]
    split <;> rfl
  · have hi : fetchOperands s op = .ok (.halt op) := by simp only [fetchOperands, decodeOp, hhalt]
    exact step_of_fetched hop hi

theorem step_of_nop {s : State} (hop : OpcodeIs s 0xEA) : step s = exec .nop s := step_of_fetched hop rfl

/-- The host's store at the instruction address is the next opcode byte (R63). -/
theorem opcodeIs_of_storeByte {s t : State} {b : Byte} (hwf : s.mem.wf = true)
    (h : (HostAction.storeByte (instrAddr s.regs).toNat b).apply s = .ok t) : OpcodeIs t b := by
  obtain ⟨m, hm, rfl⟩ := except_map_ok h
  obtain ⟨-, hx⟩ | ⟨hlt, hx⟩ := write1_cases hm
  · cases hx
  · cases hx
    exact (getByte_poke b _ hwf hlt).trans (if_pos rfl)

end Sys2Proof.Machine
end

section
/-! PROOFS. The statements of spec/20_memory.md settled. -/

namespace Sys2Proof.Machine

/-- Settles O37, one law of the byte or word read for each clause. -/
theorem byteAndWordReads : Obligations.ByteAndWordReads := by
  refine fun m a => ⟨fun h => ⟨_, getByte_of_lt h⟩, fun h => ⟨getByte_of_le h, getWord_of_le h⟩, getWord_of_lt_of_le,
    fun lo hi hlo hhi => getWord_ok.mpr ⟨?_, ?_⟩⟩
  · rw [hlo, loByte_append]
  · rw [hhi, hiByte_append]

/-- Settles O38: in bounds, a byte write is a poke, and the read after a poke is known at every address. -/
theorem writtenByteIsReadBack : Obligations.WrittenByteIsReadBack := by
  refine fun m a v hwf => ⟨write1_of_le v, fun ha => ⟨m.poke a v, write1_of_lt v ha, ?_, fun b hb => ?_⟩⟩
  · rw [getByte_poke v a hwf ha, if_pos rfl]
  · rw [getByte_poke v b hwf ha, if_neg hb]

/-- Settles O39: in bounds, a word write is two pokes, and the read after them is known at every address. -/
theorem writtenWordIsReadBack : Obligations.WrittenWordIsReadBack := by
  refine fun m a v hwf => ⟨fun k => write2_of_firstOutOfBounds v, fun ha =>
    ⟨m.pokeWord a v, write2_of_lt v ha, getWord_pokeWord v hwf ha, fun b hb hb' => ?_⟩⟩
  rw [getByte_pokeWord v b hwf ha, if_neg hb', if_neg hb]

/-- Settles O40: the reads give the size, then the byte at every address, and canonical lists are extensional. -/
theorem equalReadsMakeEqualMemories : Obligations.EqualReadsMakeEqualMemories := by
  intro m m' hwf hwf' h
  have hsize : m.size = m'.size :=
    Nat.le_antisymm (size_le_of_getByte_eq fun a => (h a).symm) (size_le_of_getByte_eq h)
  have hcells : m.cells = m'.cells :=
    canonicalFrom_ext (wf_iff.mp hwf).2.2 (wf_iff.mp hwf').2.2 (lookupCell_eq_of_getByte_eq hwf hwf' hsize h)
  exact congrArg₂ Memory.mk hsize hcells

/-- Settles O41, from the cells of an image. -/
theorem loadedImageIsRead : Obligations.LoadedImageIsRead := fun image hlo hhi =>
  ⟨ofImage_wf image hlo hhi, rfl, fun _ => ⟨fun _ => getByte_ofImage, fun h => getByte_of_le h⟩⟩

/-- Settles O42: the stored byte is the opcode byte, and no operand is fetched after a halting byte or NOP. -/
theorem hostStoreIsFetchedByNextStep : Obligations.HostStoreIsFetchedByNextStep := by
  intro s t b hwf h
  have hop : OpcodeIs t b := opcodeIs_of_storeByte hwf h
  exact ⟨hop, step_of_halts hop, fun hb => step_of_nop (hb ▸ hop)⟩

/-- Settles O36: the offset fills the sixteen bits the shift leaves clear. -/
theorem composeIsBankTimes64K : Obligations.ComposeIsBankTimes64K := by
  intro bank offset
  have hb := bank.isLt
  have ho := offset.isLt
  rw [compose_toNat, ← Nat.shiftLeft_add_eq_or_of_lt ho, Nat.shiftLeft_eq]
  omega

end Sys2Proof.Machine
end

section
/-! PROOFS. The decoder on a list of bytes, and the encoder as its inverse (spec/30_encoding.md R65 to R79). -/

namespace Sys2Proof

theorem listReader_ok {bytes : List Byte} {k : Nat} {b : Byte} :
    listReader bytes k = .ok b ↔ bytes[k]? = some b := by
  unfold listReader
  split
  · next h => simp [h]
  · next h => simp [h]

/-- A list in which the operand bytes are found in order begins with them. -/
theorem operandBytes_prefix_iff {i : Instr} {op : Byte} {tail : List Byte} :
    (∀ (k : Nat) (b : Byte), i.operandBytes[k]? = some b → listReader (op :: tail) (k + 1) = .ok b) ↔
      i.operandBytes <+: tail := by
  simp only [listReader_ok, List.getElem?_cons_succ, List.prefix_iff_getElem?]
  constructor
  · exact fun h k hk => h k _ (List.getElem?_eq_getElem hk)
  · intro h k b hb
    obtain ⟨hk, rfl⟩ := List.getElem?_eq_some_iff.mp hb
    exact h k hk

/-- The list decoder decodes the opcode byte and drops the instruction's length. -/
theorem decode_cons_ok {m : Bool} {op : Byte} {tail rest : List Byte} {i : Instr} :
    decode m (op :: tail) = .ok (i, rest) ↔
      decodeOp m op (listReader (op :: tail)) = .ok i ∧ tail.drop i.nbytes = rest := by
  have hdrop (j : Instr) : (op :: tail).drop j.length = tail.drop j.nbytes := by
    rw [Instr.length, Nat.add_comm, List.drop_succ_cons]
  constructor
  · intro h
    obtain ⟨j, hj, h⟩ := except_bind_ok h
    cases h
    exact ⟨hj, (hdrop i).symm⟩
  · rintro ⟨hi, rfl⟩
    rw [decode, hi, ← hdrop]
    rfl

/-- Decoding answers an instruction and a rest exactly when the instruction is well formed and the bytes read are its
encoding and the rest: decoder and encoder are inverse to each other (R65, R75, R79). -/
theorem decode_ok {m : Bool} {bytes rest : List Byte} {i : Instr} :
    decode m bytes = .ok (i, rest) ↔ i.wellFormed m = true ∧ encode i ++ rest = bytes := by
  cases bytes with
  | nil => exact iff_of_false nofun fun h => List.cons_ne_nil _ _ h.2
  | cons op tail =>
    rw [decode_cons_ok, decodeOp_ok, operandBytes_prefix_iff, encode, List.cons_append, List.cons.injEq,
      ← operandBytes_length]
    constructor
    · rintro ⟨⟨hop, hwf, t, rfl⟩, rfl⟩
      exact ⟨hwf, hop, by rw [List.drop_left]⟩
    · rintro ⟨hwf, hop, rfl⟩
      exact ⟨⟨hop, hwf, rest, rfl⟩, List.drop_left⟩

/-! ### Encodings of operands given as bytes, the low byte of a word first (R69 to R71) -/

section
variable (b lo hi : Byte)

theorem Imm.bytes_word_append : (Imm.word (hi ++ lo)).bytes = [lo, hi] := by
  rw [Imm.bytes, loByte_append, hiByte_append]

theorem encode_adcLong_append : encode (.adcLong b (hi ++ lo)) = [0x6F, b, lo, hi] := by
  rw [encode, Instr.operandBytes, loByte_append, hiByte_append, Instr.opcode]

theorem encode_adcAbs_append : encode (.adcAbs (hi ++ lo)) = [0x6D, lo, hi] := by
  rw [encode, Instr.operandBytes, loByte_append, hiByte_append, Instr.opcode]

theorem encode_adcImm_word_append : encode (.adcImm (.word (hi ++ lo))) = [0x69, lo, hi] := by
  rw [encode, Instr.operandBytes, Imm.bytes_word_append, Instr.opcode]

theorem encode_ldaImm_word_append : encode (.ldaImm (.word (hi ++ lo))) = [0xA9, lo, hi] := by
  rw [encode, Instr.operandBytes, Imm.bytes_word_append, Instr.opcode]

end

end Sys2Proof
end

section
/-! PROOFS. No instruction's meaning is a refusal (spec/60_exceptions.md R141). -/

namespace Sys2Proof.Machine

theorem adcFromMemory_ne_refused (opcode : Byte) (far : Option Byte) (offset : Word) (nbytes : Nat) (base : BitVec 8)
    (s : State) (r : Refusal) : adcFromMemory opcode far offset nbytes base s ≠ .refused r := by
  obtain ⟨e, -, hx⟩ | ⟨v, -, hx⟩ := adcFromMemory_cases opcode far offset nbytes base s
  · rw [hx]; exact nofun
  · rw [hx]; exact nofun

theorem exec_ne_refused (i : Instr) (s : State) (r : Refusal) : exec i s ≠ .refused r := by
  cases i with
  | adcAbs addr => exact adcFromMemory_ne_refused 0x6D none addr 2 4 s r
  | adcLong bank addr => exact adcFromMemory_ne_refused 0x6F (some bank) addr 3 5 s r
  | adcImm | ldaImm | nop | stp00 | stpDB | halt => exact nofun

end Sys2Proof.Machine
end

section
/-! PROOFS. Assembler text reads back: digits, operand fields, lines (spec/30_encoding.md R81). -/

namespace Sys2Proof.Machine

/-! ### Digits -/

theorem hexValue_hexDigit (v : BitVec 4) : hexValue (hexDigit v) = some v := by
  revert v
  decide

/-- A byte is its two halves, the more significant first. -/
theorem byte_of_halves (b : Byte) :
    (b.extractLsb' 4 4).setWidth 8 <<< 4 ||| (b.extractLsb' 0 4).setWidth 8 = b := by
  apply BitVec.eq_of_getLsbD_eq
  intro i hi
  simp only [BitVec.getLsbD_or, BitVec.getLsbD_shiftLeft, BitVec.getLsbD_setWidth, BitVec.getLsbD_extractLsb', hi]
  by_cases h : i < 4
  · simp [h, hi]
  · simp [h, show i - 4 < 8 by omega, show i - 4 < 4 by omega, show 4 + (i - 4) = i by omega]

/-- The two digits of a byte stand for it. -/
@[simp] theorem byteOfHex_hexDigits (b : Byte) :
    byteOfHex (hexDigit (b.extractLsb' 4 4)) (hexDigit (b.extractLsb' 0 4)) = some b := by
  simp only [byteOfHex, hexValue_hexDigit, Option.bind_eq_bind, Option.bind_some, byte_of_halves]
  rfl

/-! ### Operand fields -/

theorem readImm_hexByte (b : Byte) : readImm true (hexByte b) = some (.byte b) := by
  simp [readImm, hexByte]

theorem readImm_hexWord (w : Word) : readImm false (hexWord w) = some (.word w) := by
  simp [readImm, hexWord, hexByte]

theorem readAdcAddr_hexWord (w : Word) : readAdcAddr (hexWord w) = some (.adcAbs w) := by
  simp [readAdcAddr, hexWord, hexByte]

theorem readAdcAddr_hexByte_hexWord (bank : Byte) (w : Word) :
    readAdcAddr (hexByte bank ++ hexWord w) = some (.adcLong bank w) := by
  simp [readAdcAddr, hexWord, hexByte]

theorem readHaltByte_hexByte {op : Byte} (h : op ∉ implementedOpcodes) :
    readHaltByte (hexByte op) = some (.halt op) := by
  simp [readHaltByte, hexByte, h]

/-- The digits of an immediate, without the `#$` before them. -/
def immDigits : Imm → List Char
  | .byte b => hexByte b
  | .word w => hexWord w

/-- The number of digits tells the width, which is the mode's (R70, R81). -/
theorem readImm_immDigits {m : Bool} {imm : Imm} (h : imm.fits m = true) : readImm m (immDigits imm) = some imm := by
  cases imm with
  | byte b =>
    obtain rfl : m = true := h
    exact readImm_hexByte b
  | word w =>
    obtain rfl : m = false := by simpa [Imm.fits] using h
    exact readImm_hexWord w

/-! ### Lines: the reader finds the head of the line and reads the operand field after it -/

section
variable (m : Bool)

theorem readAsm_adcImm (imm : Imm) : readAsm m (asm (.adcImm imm)) = (readImm m (immDigits imm)).map .adcImm := by
  cases imm <;> rfl

theorem readAsm_ldaImm (imm : Imm) : readAsm m (asm (.ldaImm imm)) = (readImm m (immDigits imm)).map .ldaImm := by
  cases imm <;> rfl

theorem readAsm_adcAbs (addr : Word) : readAsm m (asm (.adcAbs addr)) = readAdcAddr (hexWord addr) := rfl

theorem readAsm_adcLong (bank : Byte) (addr : Word) :
    readAsm m (asm (.adcLong bank addr)) = readAdcAddr (hexByte bank ++ hexWord addr) := rfl

theorem readAsm_halt (op : Byte) : readAsm m (asm (.halt op)) = readHaltByte (hexByte op) := rfl

end

end Sys2Proof.Machine
end

section
/-! PROOFS. The statements of spec/30_encoding.md settled. -/

namespace Sys2Proof.Machine

/-- Settles O1: the encoder gives bytes the decoder answers. -/
theorem encodeThenDecodeGivesInstruction : Obligations.EncodeThenDecodeGivesInstruction := fun _ _ _ hwf =>
  decode_ok.mpr ⟨hwf, rfl⟩

/-- Settles O2: what the decoder answers encodes to the bytes read. -/
theorem decodeThenEncodeGivesBytes : Obligations.DecodeThenEncodeGivesBytes := fun _ _ _ _ => decode_ok.mp

/-- Settles O3: the bytes of each clause are those of its well-formed instruction. -/
theorem decodeReadsOperandByClass : Obligations.DecodeReadsOperandByClass := by
  intro b lo hi rest m
  refine ⟨decode_ok.mpr ⟨rfl, ?_⟩, decode_ok.mpr ⟨rfl, ?_⟩, decode_ok.mpr ⟨rfl, rfl⟩, decode_ok.mpr ⟨rfl, ?_⟩,
    decode_ok.mpr ⟨rfl, rfl⟩, decode_ok.mpr ⟨rfl, ?_⟩, decode_ok.mpr ⟨rfl, rfl⟩⟩
  · rw [encode_adcLong_append]; rfl
  · rw [encode_adcAbs_append]; rfl
  · rw [encode_adcImm_word_append]; rfl
  · rw [encode_ldaImm_word_append]; rfl

/-- Settles O6: the reader finds the line's head, and reads back the digits after it. -/
theorem assemblerTextReadsBack : Obligations.AssemblerTextReadsBack := by
  intro m i hwf hne
  cases i with
  | adcImm imm => rw [readAsm_adcImm, readImm_immDigits hwf]; rfl
  | ldaImm imm => rw [readAsm_ldaImm, readImm_immDigits hwf]; rfl
  | adcAbs addr => rw [readAsm_adcAbs, readAdcAddr_hexWord]
  | adcLong bank addr => rw [readAsm_adcLong, readAdcAddr_hexByte_hexWord]
  | nop => rfl
  | stp00 => exact absurd rfl hne
  | stpDB => rfl
  | halt op =>
    have hop : op ∉ implementedOpcodes := by simpa [Instr.wellFormed] using hwf
    rw [readAsm_halt, readHaltByte_hexByte hop]

/-- Settles O16: a step ends in a fault or in the outcome of an instruction, and neither is a refusal. -/
theorem stepIsNeverRefused : Obligations.StepIsNeverRefused := by
  intro s r
  obtain ⟨e, -, hs⟩ | ⟨op, e, -, -, hs⟩ | ⟨op, i, -, -, hs⟩ := step_cases s
  · rw [hs]; exact nofun
  · rw [hs]; exact nofun
  · rw [hs]; exact exec_ne_refused i s r

/-- Settles O4: each example's bytes are those of its instruction. -/
theorem workedDecodesOfTheSpec : Obligations.WorkedDecodesOfTheSpec := by
  refine ⟨?_, ?_, ?_, ?_, ?_, ?_, ?_, ?_, ?_⟩ <;> exact decode_ok.mpr ⟨rfl, rfl⟩

/-- Settles O5: a byte that is none of the seven has the default entry. -/
theorem opcodeTableEntries : Obligations.OpcodeTableEntries := by
  refine ⟨rfl, rfl, rfl, rfl, rfl, rfl, rfl, fun op hop => opcodeTable_halt ?_⟩
  have hsub : implementedOpcodes ⊆ [0x69, 0x6D, 0x6F, 0xA9, 0xEA, 0x00, 0xDB] := by decide
  simpa using fun h => hop (hsub h)

end Sys2Proof.Machine
end

section
/-! PROOFS. What a step that answers a next state does to the program counter and reports, and what it answers where a
fetch fails (spec/40_pipeline.md R86 to R100). -/

namespace Sys2Proof

/-- The first operand byte that the reader fails to answer is the decoder's failure (R72: increasing address order). -/
theorem decodeOp_error_of_first {ε : Type} {m : Bool} {op : Byte} {rd : Nat → Except ε Byte} {k : Nat} {e : ε}
    (hk : k < (opcodeTable op).cls.operandBytes m) (herr : rd (k + 1) = .error e)
    (hok : ∀ j, j < k → ∃ b, rd (j + 1) = .ok b) : decodeOp m op rd = .error e := by
  cases hd : decodeOp m op rd with
  | ok i =>
    obtain ⟨rfl, hwf, hread⟩ := decodeOp_ok.mp hd
    have hlen : k < i.operandBytes.length := by
      rwa [operandBytes_length, ← operandBytes_of_wellFormed hwf]
    have hgot := hread k _ (List.getElem?_eq_getElem hlen)
    exact nomatch herr.symm.trans hgot
  | error e' =>
    obtain ⟨k', -, herr', hok'⟩ := decodeOp_error hd
    obtain hlt | rfl | hgt := Nat.lt_trichotomy k k'
    · obtain ⟨b, hb⟩ := hok' k hlt
      exact nomatch herr.symm.trans hb
    · rw [Except.error.inj (herr'.symm.trans herr)]
    · obtain ⟨b, hb⟩ := hok k' hgt
      exact nomatch herr'.symm.trans hb

end Sys2Proof

namespace Sys2Proof.Machine

/-! ### Fetches (R86, R87, R92) -/

theorem fetchByte_of_lt {s : State} (ph : Phase) {k : Nat} (h : (instrAddr s.regs).toNat + k < s.mem.size) :
    ∃ b, fetchByte s ph k = .ok b :=
  ⟨_, labelled_ok.mpr (getByte_of_lt h)⟩

theorem fetchByte_of_le {s : State} (ph : Phase) {k : Nat} (h : s.mem.size ≤ (instrAddr s.regs).toNat + k) :
    fetchByte s ph k = .error ⟨ph, (instrAddr s.regs).toNat + k⟩ :=
  labelled_error.mpr ⟨rfl, getByte_of_le h⟩

theorem step_of_opcode_error {s : State} {e : MemError} (h : fetchOpcode s = .error e) :
    step s = .fault (oobFault e.phase e.addr (instrAddr s.regs) none) := by
  rw [step, h]
  rfl

theorem step_of_operand_error {s : State} {op : Byte} {e : MemError} (hop : OpcodeIs s op)
    (h : fetchOperands s op = .error e) :
    step s = .fault (oobFault e.phase e.addr (instrAddr s.regs) (some op)) := by
  rw [step, fetchOpcode_ok.mpr hop]
  simp only [h]
  rfl

theorem fetchOperands_of_firstOutOfBounds {s : State} {op : Byte} {k : Nat}
    (h : FirstOutOfBounds s.mem ((instrAddr s.regs).toNat + 1) ((opcodeTable op).cls.operandBytes (accIs8 s.regs)) k) :
    fetchOperands s op = .error ⟨.operand, (instrAddr s.regs).toNat + 1 + k⟩ := by
  obtain ⟨hk, hout, hin⟩ := h
  rw [Nat.add_right_comm] at hout ⊢
  refine decodeOp_error_of_first hk (fetchByte_of_le .operand hout) fun j hj => fetchByte_of_lt .operand ?_
  rw [← Nat.add_assoc, Nat.add_right_comm]
  exact hin j hj

/-- Where a well-formed instruction's bytes stand, the fetch reads that instruction (R86, R90, R91). -/
theorem BytesAt.fetched {s : State} {i : Instr} (h : BytesAt s (encode i)) (hwf : i.wellFormed (accIs8 s.regs) = true) :
    OpcodeIs s i.opcode ∧ fetchOperands s i.opcode = .ok i :=
  ⟨h 0 _ rfl, decodeOp_ok.mpr ⟨rfl, hwf, fun k b hb => labelled_ok.mpr (h (k + 1) b hb)⟩⟩

/-! ### What a completed step does to `PC` and reports (R97 to R100) -/

/-- The instructions that halt, as they are listed in `exec_next`, have a halting opcode byte. -/
theorem halts_opcode {m : Bool} {i : Instr} (hwf : i.wellFormed m = true)
    (hi : i = .stp00 ∨ i = .stpDB ∨ ∃ op, i = .halt op) : Halts i.opcode := by
  obtain rfl | rfl | ⟨op, rfl⟩ := hi
  · exact .inl rfl
  · exact .inl rfl
  · have hop : implementedOpcodes.contains op = false := by
      simpa only [Instr.wellFormed, Bool.not_eq_true'] using hwf
    exact .inr (by rw [Instr.opcode, opcodeTable_halt hop])

/-- The counts a completed instruction reports: a base from 2 to 5, and at most 1 for a zero operand (R100). -/
def CycleCount (n : BitVec 8) : Prop := 2 ≤ n.toNat ∧ n.toNat ≤ 6

theorem immBase_bounds (r : CpuRegisters) : 2 ≤ (immBase r).toNat ∧ (immBase r).toNat ≤ 3 := by
  unfold immBase
  split <;> decide

theorem cycleCount_add_zeroExtra {base : BitVec 8} (hlo : 2 ≤ base.toNat) (hhi : base.toNat ≤ 5) (v : Word) :
    CycleCount (base + zeroExtra v) := by
  have hextra : (zeroExtra v).toNat ≤ 1 := by
    unfold zeroExtra
    split <;> decide
  have hbase := base.isLt
  rw [CycleCount, BitVec.toNat_add]
  omega

/-- All a completed step does to `PC`, `PBR` and the output: it halts and changes only the output, or it advances `PC`
past the operand bytes of the opcode's class and reports its cycles. -/
theorem step_next_of_opcode {s t : State} {op : Byte} (hop : OpcodeIs s op) (h : step s = .next t) :
    (Halts op ∧ t = { s with out := .halted 3 }) ∨
    (¬ Halts op ∧ ∃ r n, t = { s with
        regs := advancePc ((opcodeTable op).cls.operandBytes (accIs8 s.regs)) r, out := .running n } ∧
      r.pc = s.regs.pc ∧ r.pbr = s.regs.pbr ∧ CycleCount n) := by
  by_cases hhalt : Halts op
  · exact .inl ⟨hhalt, (Host.Outcome.next.inj ((step_of_halts hop hhalt).symm.trans h)).symm⟩
  obtain ⟨i, hi, hwf, hexec⟩ := step_next_instr h
  obtain rfl := hop.unique hi
  obtain ⟨hstop, -⟩ | ⟨r, n, rfl, hr⟩ := exec_next hexec
  · exact absurd (halts_opcode hwf hstop) hhalt
  rw [operandBytes_of_wellFormed hwf]
  refine .inr ⟨hhalt, r, n, rfl, ?_⟩
  obtain ⟨hlo, hhi⟩ := immBase_bounds s.regs
  obtain ⟨-, rfl, rfl⟩ | ⟨imm, -, rfl, rfl⟩ | ⟨v, rfl, hn⟩ := hr
  · exact ⟨rfl, rfl, by decide, by decide⟩
  · exact ⟨rfl, rfl, hlo, by omega⟩
  refine ⟨adcCore_pc v s.regs, adcCore_pbr v s.regs, ?_⟩
  obtain ⟨imm, -, -, rfl⟩ | ⟨a, -, rfl, -⟩ | ⟨b, a, -, rfl, -⟩ := hn
  · exact cycleCount_add_zeroExtra hlo (by omega) v
  · exact cycleCount_add_zeroExtra (by decide) (by decide) v
  · exact cycleCount_add_zeroExtra (by decide) (by decide) v

theorem pcAdvances_advancePc {r r' : CpuRegisters} (n : Nat) (h : r'.pc = r.pc) :
    PcAdvances (1 + n) r (advancePc n r') := by
  rw [PcAdvances, advancePc_pc, h, BitVec.toNat_add, BitVec.toNat_ofNat, Nat.add_mod_mod]

/-- A halt changes no register, so that the next step fetches the same halting byte (R98, R101). -/
theorem step_next_halted {s t : State} {n : BitVec 8} (h : step s = .next t) (hout : t.out = .halted n) :
    n = 3 ∧ t.regs = s.regs ∧ step t = .next t := by
  obtain ⟨op, hop, -⟩ := step_next_regsAfter h
  obtain ⟨hhalt, rfl⟩ | ⟨-, r, c, rfl, -⟩ := step_next_of_opcode hop h
  · exact ⟨(StepOutput.halted.inj hout).symm, rfl, step_of_halts (s := { s with out := .halted 3 }) hop hhalt⟩
  · cases hout

end Sys2Proof.Machine
end

section
/-! PROOFS. How a run ends: its end is the end of its last step, and a longer bound does not change it
(spec/40_pipeline.md R104). -/

namespace Sys2Proof.Machine

/-- The end of a run is what a step answered: `Halted` in the state after it, a fault or a refusal in the state before
it (R104); a run cut short by its bound says nothing. -/
def RunEnd.OfStep : RunEnd → Prop
  | .unfinished _ _ => True
  | .halted t _ => ∃ s n, step s = .next t ∧ t.out = .halted n
  | .faulted s f _ => step s = .fault f
  | .refused s r _ => step s = .refused r

theorem runFrom_ofStep (fuel cycles : Nat) (s : State) : (runFrom fuel cycles s).OfStep := by
  fun_induction runFrom fuel cycles s with
  | case1 => trivial
  | case2 _ _ _ f h => exact h
  | case3 _ _ _ r h => exact h
  | case4 _ _ s t h n hout => exact ⟨s, n, h, hout⟩
  | case5 _ _ _ _ _ _ _ ih => exact ih
  | case6 _ _ _ _ _ _ ih => exact ih

/-- A run that ended within its bound ends the same way under a larger one. -/
theorem runFrom_add (more : Nat) {fuel cycles : Nat} {s : State}
    (h : ∀ t n, runFrom fuel cycles s ≠ .unfinished t n) :
    runFrom (fuel + more) cycles s = runFrom fuel cycles s := by
  fun_induction runFrom fuel cycles s with
  | case1 cycles s => exact absurd rfl (h s cycles)
  | case2 _ _ _ _ hstep | case3 _ _ _ _ hstep => rw [Nat.succ_add, runFrom, hstep]
  | case4 _ _ _ _ hstep _ hout =>
    rw [Nat.succ_add, runFrom, hstep]
    simp only [hout]
  | case5 _ _ _ _ hstep _ hout ih =>
    rw [Nat.succ_add, runFrom, hstep]
    simpa only [hout] using ih h
  | case6 _ _ _ _ hstep hout ih =>
    rw [Nat.succ_add, runFrom, hstep]
    simpa only [hout] using ih h

end Sys2Proof.Machine
end

section
/-! PROOFS. The statements of spec/40_pipeline.md settled. -/

namespace Sys2Proof.Machine

/-- Settles O8: a halt keeps the registers, and the other steps advance the `PC` past the class's operand bytes. -/
theorem stepAdvancesPcByClassLength : Obligations.StepAdvancesPcByClassLength := by
  intro s t op hop h
  obtain ⟨hhalt, rfl⟩ | ⟨hrun, r, n, rfl, hpc, hpbr, -⟩ := step_next_of_opcode hop h
  · exact ⟨rfl, fun _ => rfl, fun hrun => absurd hhalt hrun⟩
  · exact ⟨hpbr, fun hhalt => absurd hhalt hrun, fun _ => pcAdvances_advancePc _ hpc⟩

/-- Settles O9, from what a completed step reports. -/
theorem stepReportsCycleCount : Obligations.StepReportsCycleCount := by
  intro s t op hop h
  obtain ⟨hhalt, rfl⟩ | ⟨hrun, r, n, rfl, -, -, hn⟩ := step_next_of_opcode hop h
  · exact ⟨fun _ => rfl, fun hrun => absurd hhalt hrun⟩
  · exact ⟨fun hhalt => absurd hhalt hrun, fun _ => ⟨n, rfl, hn⟩⟩

/-- Settles O12: after a halt the same halting byte is fetched again. -/
theorem stepAfterHaltHaltsAgain : Obligations.StepAfterHaltHaltsAgain := fun _ _ _ => step_next_halted

/-- Settles O18: the opcode byte is the first fetch. -/
theorem opcodeFetchOutOfBoundsFaults : Obligations.OpcodeFetchOutOfBoundsFaults := fun _ h =>
  step_of_opcode_error (fetchByte_of_le .opcode h)

/-- Settles O19: the decoder reads the operand bytes in order, and fails at the first that is out of bounds. -/
theorem operandFetchOutOfBoundsFaults : Obligations.OperandFetchOutOfBoundsFaults := fun _ _ _ hop h =>
  step_of_operand_error hop (fetchOperands_of_firstOutOfBounds h)

/-- Settles O45: the end of a run is its last step's, and a halt stays. -/
theorem runEndIsFinal : Obligations.RunEndIsFinal := by
  intro fuel more cycles n s t
  have hlast := runFrom_ofStep fuel cycles s
  refine ⟨fun h => ?_, fun f h => ?_⟩
  · rw [h] at hlast
    obtain ⟨s', m, hstep, hout⟩ := hlast
    obtain ⟨-, -, hstay⟩ := step_next_halted hstep hout
    exact ⟨(runFrom_add more (by simp [h])).trans h, hstay⟩
  · rw [h] at hlast
    exact ⟨(runFrom_add more (by simp [h])).trans h, hlast⟩

/-- Settles O7: the bytes of a well-formed instruction are fetched as that instruction. -/
theorem stepRunsDecodedInstruction : Obligations.StepRunsDecodedInstruction := by
  intro s i hwf hbytes
  obtain ⟨hop, hi⟩ := hbytes.fetched hwf
  exact step_of_fetched hop hi

/-- Settles O17: NOP only advances the `PC`, and FFFF + 1 is 0 modulo 2^16. -/
theorem nopAtBankEndWrapsInsideBank : Obligations.NopAtBankEndWrapsInsideBank := by
  intro s hpc hop
  refine ⟨_, step_of_nop hop, ?_, rfl, rfl⟩
  rw [advancePc_pc, hpc]
  decide

end Sys2Proof.Machine
end

section
/-! PROOFS. ADC in exact numbers: what `adc_core` leaves, what the data read answers, and how the three ADC forms
complete or fault (spec/41_arithmetic.md R105 to R112). -/

namespace Sys2Proof.Machine

/-! ### The flag computations, in exact numbers (R105) -/

section
variable {n : Nat} (a b : BitVec n)

theorem unsignedOverflow_iff : unsignedOverflow a b = true ↔ 2 ^ n ≤ a.toNat + b.toNat := by
  have hpos : 0 < 2 ^ n := Nat.two_pow_pos n
  rw [unsignedOverflow, decide_eq_true_eq]
  omega

/-- The two's-complement reading of a bit vector is `sext` of its unsigned one (spec/00_scope.md R9). -/
theorem toInt_eq_sext : a.toInt = sext n a.toNat := by
  rw [sext, BitVec.toInt_eq_msb_cond, BitVec.msb_eq_decide]
  by_cases h : a.toNat < 2 ^ (n - 1)
  · simp [h]
  · simp [h, Nat.not_lt.mp h]

theorem signedOverflow_iff :
    signedOverflow a b = true ↔
      (sext n a.toNat + sext n b.toNat < -(2 ^ (n - 1) : Int) ∨
        (2 ^ (n - 1) : Int) ≤ sext n a.toNat + sext n b.toNat) := by
  rw [signedOverflow, Bool.or_eq_true, decide_eq_true_eq, decide_eq_true_eq, toInt_eq_sext, toInt_eq_sext,
    Int.sub_one_lt_iff]

theorem signBit_iff : signBit a = true ↔ 2 ^ (n - 1) ≤ a.toNat := by
  rw [signBit, ← BitVec.msb_eq_getLsbD_last, BitVec.msb_eq_decide, decide_eq_true_eq]

/-- An accumulator that holds the sum, beside the flags computed from the two summands, is the addition of R105 and
R112, at any width. -/
theorem addEffect_of_sum {p : Byte} {r' : CpuRegisters} (ha : r'.a.toNat = (a + b).toNat)
    (hp : r'.p = withAdcFlags p (unsignedOverflow a b) (signedOverflow a b) (signBit (a + b)) (decide (r'.a = 0))) :
    AddEffect n a.toNat b.toNat r' := by
  have hsum : (a + b).toNat = (a.toNat + b.toNat) % 2 ^ n := BitVec.toNat_add a b
  simp only [AddEffect, getFlag, hp, flagOf_withAdcFlags]
  exact ⟨ha.trans hsum, unsignedOverflow_iff a b, signedOverflow_iff a b, hsum ▸ signBit_iff (a + b),
    decide_eq_true_iff⟩

end

/-! ### `adc_core` -/

section
variable (v : Word) (r : CpuRegisters)

theorem withCarryIn_toNat : (withCarryIn v r).toNat = incremented v.toNat r := by
  rw [withCarryIn, incremented]
  cases getFlag .carry r
  · exact (Nat.mod_eq_of_lt v.isLt).symm
  · exact BitVec.toNat_add v 1

theorem adcCore_of_8bit (h8 : accIs8 r = true) : adcCore v r = adcCore8 v r := if_pos h8

theorem adcCore_of_16bit (h8 : accIs8 r = false) : adcCore v r = adcCore16 v r := if_neg (by simp [h8])

theorem adcCore8_addEffect : AddEffect 8 (r.a.toNat % 256) (incremented v.toNat r % 256) (adcCore8 v r) := by
  rw [← withCarryIn_toNat, ← loByte_toNat, ← loByte_toNat]
  exact addEffect_of_sum _ _ (zext16_toNat _) rfl

theorem adcCore16_addEffect : AddEffect 16 r.a.toNat (incremented v.toNat r) (adcCore16 v r) := by
  rw [← withCarryIn_toNat]
  exact addEffect_of_sum _ _ rfl rfl

theorem adcCore_adcEffect : AdcEffect v.toNat r (adcCore v r) := by
  rw [AdcEffect]
  cases h8 : accIs8 r
  · exact adcCore_of_16bit v r h8 ▸ adcCore16_addEffect v r
  · exact adcCore_of_8bit v r h8 ▸ adcCore8_addEffect v r

/-- `adc_core` in 8-bit mode reads the incremented operand through its low byte (R106). -/
theorem adcCore8_congr {v v' : Word} (h : loByte (withCarryIn v r) = loByte (withCarryIn v' r)) :
    adcCore8 v r = adcCore8 v' r := by
  rw [adcCore8, adcCore8, h]

/-- The carry-in does not bring the high byte down: equal low bytes stay equal. -/
theorem loByte_withCarryIn_congr {v v' : Word} (h : v.toNat % 256 = v'.toNat % 256) :
    loByte (withCarryIn v r) = loByte (withCarryIn v' r) := by
  apply BitVec.eq_of_toNat_eq
  rw [loByte_toNat, loByte_toNat, withCarryIn_toNat, withCarryIn_toNat, incremented, incremented]
  omega

end

/-- Adding zero keeps an accumulator that fits the width, and carries nothing out (R106). -/
theorem AddEffect.of_zero {n : Nat} {r r' : CpuRegisters} (h : AddEffect n r.a.toNat 0 r') (hfit : r.a.toNat < 2 ^ n) :
    r'.a = r.a ∧ getFlag .carry r' = false := by
  obtain ⟨ha, hc, -⟩ := h
  rw [Nat.add_zero] at ha hc
  refine ⟨BitVec.eq_of_toNat_eq (ha.trans (Nat.mod_eq_of_lt hfit)), ?_⟩
  rw [← Bool.not_eq_true, hc]
  exact Nat.not_le.mpr hfit

/-! ### The data read (R109, R96): a byte or a word, or the first byte out of bounds -/

section
variable {r : CpuRegisters} {m : Memory} {ea : Addr} {a : Nat}

theorem readData_of_8bit (h8 : accIs8 r = true) : readData r m ea = (m.read1 ea.toNat .data).map zext16 := if_pos h8

theorem readData_of_16bit (h8 : accIs8 r = false) : readData r m ea = m.read2 ea.toNat .data := if_neg (by simp [h8])

theorem readData_byte {b : Byte} (h8 : accIs8 r = true) (ha : ea.toNat = a) (hb : m.getByte a = .ok b) :
    readData r m ea = .ok (zext16 b) := by
  rw [readData_of_8bit h8, ha, Memory.read1, hb]
  rfl

theorem readData_word {lo hi : Byte} (h8 : accIs8 r = false) (ha : ea.toNat = a) (hlo : m.getByte a = .ok lo)
    (hhi : m.getByte (a + 1) = .ok hi) : readData r m ea = .ok (hi ++ lo) := by
  rw [readData_of_16bit h8, ha]
  refine labelled_ok.mpr (getWord_ok.mpr ⟨?_, ?_⟩)
  · rw [hlo, loByte_append]
  · rw [hhi, hiByte_append]

theorem getWord_of_firstOutOfBounds {k : Nat} (h : FirstOutOfBounds m a 2 k) : m.getWord a = .error (a + k) := by
  obtain ⟨hk, hout, hin⟩ := h
  obtain rfl | rfl : k = 0 ∨ k = 1 := by omega
  · exact getWord_of_le hout
  · exact getWord_of_lt_of_le (hin 0 Nat.one_pos) hout

theorem readData_of_firstOutOfBounds {k : Nat} (h : FirstOutOfBounds m ea.toNat (if accIs8 r then 1 else 2) k) :
    readData r m ea = .error ⟨.data, ea.toNat + k⟩ := by
  cases h8 : accIs8 r
  · rw [h8] at h
    rw [readData_of_16bit h8, Memory.read2, getWord_of_firstOutOfBounds h]
    rfl
  · rw [h8] at h
    obtain ⟨hk, hout, -⟩ := h
    obtain rfl : k = 0 := Nat.lt_one_iff.mp hk
    rw [Nat.add_zero] at hout ⊢
    rw [readData_of_8bit h8, Memory.read1, getByte_of_le hout]
    rfl

end

/-! ### How an ADC ends (R97, R99, R107 to R111) -/

/-- ADC of `v` by the instruction `i`, whose bytes are `bs`: `exec` completes it with its whole effect, and so does the
step of a state that holds the bytes. -/
def AdcCompletes (bs : List Byte) (i : Instr) (v len n : Nat) (s : State) : Prop :=
  ∃ t, exec i s = .next t ∧ AdcDone v len n s t ∧ (BytesAt s bs → step s = .next t)

theorem ofNat_add_extraIfZero (base : Nat) (v : Word) :
    BitVec.ofNat 8 (base + extraIfZero v.toNat) = BitVec.ofNat 8 base + zeroExtra v := by
  rw [BitVec.ofNat_add, extraIfZero, zeroExtra]
  by_cases h : v = 0
  · subst h; rfl
  · have hne : v.toNat ≠ 0 := fun hz => h (BitVec.eq_of_toNat_eq hz)
    rw [if_neg h, if_neg hne]
    rfl

/-- The state in which an ADC retires is `AdcDone`. -/
theorem adcDone_of_retire (value : Word) (nbytes base : Nat) (s : State) :
    AdcDone value.toNat (1 + nbytes) (base + extraIfZero value.toNat) s { s with
      regs := advancePc nbytes (adcCore value s.regs), out := .running (BitVec.ofNat 8 base + zeroExtra value) } :=
  ⟨adcCore_adcEffect value s.regs, pcAdvances_advancePc nbytes (adcCore_pc value s.regs),
    congrArg StepOutput.running (ofNat_add_extraIfZero base value).symm, adcCore_keepsFlagsBut value s.regs,
    adcCore_keepsInertRegs value s.regs, fun _ => rfl⟩

section
variable {bs : List Byte} {s : State} {value : Word} {v base : Nat}

/-- An ADC that `exec` retires completes: the step fetches a well-formed instruction from its bytes (R102). -/
theorem adcCompletes_of_exec {i : Instr} (hbs : encode i = bs) (hwf : i.wellFormed (accIs8 s.regs) = true)
    (hv : value.toNat = v)
    (hexec : exec i s = retire s (adcCore value s.regs) i.nbytes (BitVec.ofNat 8 base + zeroExtra value)) :
    AdcCompletes bs i v i.length (base + extraIfZero v) s := by
  subst hbs hv
  exact ⟨_, hexec, adcDone_of_retire value i.nbytes base s, fun h => (stepRunsDecodedInstruction s i hwf h).trans hexec⟩

theorem adcImm_completes {imm : Imm} (hbs : encode (.adcImm imm) = bs) (hfits : imm.fits (accIs8 s.regs) = true)
    (hv : (immValue imm).toNat = v) (hbase : immBase s.regs = BitVec.ofNat 8 base) :
    AdcCompletes bs (.adcImm imm) v (1 + imm.nbytes) (base + extraIfZero v) s := by
  refine adcCompletes_of_exec hbs hfits hv ?_
  rw [← hbase]
  rfl

theorem adcFromMemory_of_read {op : Byte} {far : Option Byte} {offset : Word} (nbytes : Nat) (base : BitVec 8)
    (hread : readData s.regs s.mem (effectiveAddr far offset s.regs) = .ok value) :
    adcFromMemory op far offset nbytes base s = retire s (adcCore value s.regs) nbytes (base + zeroExtra value) := by
  rw [adcFromMemory, hread]

theorem adcAbs_completes {addr : Word} (hbs : encode (.adcAbs addr) = bs) (hv : value.toNat = v)
    (hread : readData s.regs s.mem (compose s.regs.dbr addr) = .ok value) :
    AdcCompletes bs (.adcAbs addr) v 3 (4 + extraIfZero v) s :=
  adcCompletes_of_exec hbs rfl hv (adcFromMemory_of_read (far := none) 2 4 hread)

theorem adcLong_completes {bank : Byte} {addr : Word} (hbs : encode (.adcLong bank addr) = bs) (hv : value.toNat = v)
    (hread : readData s.regs s.mem (compose bank addr) = .ok value) :
    AdcCompletes bs (.adcLong bank addr) v 4 (5 + extraIfZero v) s :=
  adcCompletes_of_exec hbs rfl hv (adcFromMemory_of_read (far := some bank) 3 5 hread)

/-- The fault of the data read is raised before any register is written (R96, R135). -/
theorem adcFromMemory_of_firstOutOfBounds {far : Option Byte} {offset : Word} {k : Nat} (op : Byte) (nbytes : Nat)
    (base : BitVec 8)
    (h : FirstOutOfBounds s.mem (effectiveAddr far offset s.regs).toNat (if accIs8 s.regs then 1 else 2) k) :
    adcFromMemory op far offset nbytes base s =
      .fault (oobFault .data ((effectiveAddr far offset s.regs).toNat + k) (instrAddr s.regs) (some op)) := by
  rw [adcFromMemory, readData_of_firstOutOfBounds h]
  rfl

end

theorem compose_append_toNat (bank lo hi : Byte) :
    (compose bank (hi ++ lo)).toNat = bank.toNat * 65536 + (lo.toNat + 256 * hi.toNat) := by
  rw [compose_toNat, append_toNat]

end Sys2Proof.Machine
end

section
/-! PROOFS. The statements of spec/41_arithmetic.md settled. -/

namespace Sys2Proof.Machine

/-- Settles O21: the sum and the flags at either width, and the frame. -/
theorem adcCoreSumAndFlags : Obligations.AdcCoreSumAndFlags := fun v r =>
  ⟨adcCore_adcEffect v r, adcCore_keepsFlagsBut v r, adcCore_keepsInertRegs v r, adcCore_pc v r⟩

/-- Settles O22: the incremented operand is zero in the bits that are added. -/
theorem adcCarryInOnAllOnesKeepsAccumulator : Obligations.AdcCarryInOnAllOnesKeepsAccumulator := by
  refine ⟨fun r hinv h8 hc => ?_, fun r h8 hc => ?_⟩
  · have hw : incremented (0x00FF : Word).toNat r % 256 = 0 := by rw [incremented, hc]; rfl
    have hadd := adcCore8_addEffect 0x00FF r
    rw [hw, Nat.mod_eq_of_lt (hinv h8)] at hadd
    rw [adcCore_of_8bit _ r h8]
    exact hadd.of_zero (hinv h8)
  · have hw : incremented (0xFFFF : Word).toNat r = 0 := by rw [incremented, hc]; rfl
    have hadd := adcCore16_addEffect 0xFFFF r
    rw [hw] at hadd
    rw [adcCore_of_16bit _ r h8]
    exact hadd.of_zero r.a.isLt

/-- Settles O23: the low byte of the incremented operand comes from the operand's low byte. -/
theorem adcIn8BitModeIgnoresHighByte : Obligations.AdcIn8BitModeIgnoresHighByte := by
  intro v v' r h8 hlow
  rw [adcCore_of_8bit v r h8, adcCore_of_8bit v' r h8]
  exact adcCore8_congr r (loByte_withCarryIn_congr r hlow)

/-- Settles O24: the immediate of the mode's width is the value added. -/
theorem adcImmediateCompletes : Obligations.AdcImmediateCompletes := by
  refine ⟨fun b s h8 => ?_, fun lo hi s h8 => ?_⟩
  · have hbase : immBase s.regs = 2 := if_pos h8
    exact adcImm_completes (imm := .byte b) rfl h8 (zext16_toNat b) hbase
  · have hbase : immBase s.regs = 3 := if_neg (by simp [h8])
    have hfits : (Imm.word (hi ++ lo)).fits (accIs8 s.regs) = true := by rw [Imm.fits, h8]; rfl
    exact adcImm_completes (encode_adcImm_word_append lo hi) hfits (append_toNat lo hi) hbase

/-- Settles O25: the data bytes at `compose(DBR, operand)` are the value added. -/
theorem adcAbsoluteCompletes : Obligations.AdcAbsoluteCompletes := by
  refine ⟨fun lo hi v s h8 hv => ?_, fun lo hi v w s h8 hv hw => ?_⟩
  · have hread := readData_byte h8 (compose_append_toNat s.regs.dbr lo hi) hv
    exact adcAbs_completes (encode_adcAbs_append lo hi) (zext16_toNat v) hread
  · have hread := readData_word h8 (compose_append_toNat s.regs.dbr lo hi) hv hw
    exact adcAbs_completes (encode_adcAbs_append lo hi) (append_toNat v w) hread

/-- Settles O26: the data read of ADC absolute is in bank `DBR`. -/
theorem adcAbsoluteDataOutOfBoundsFaults : Obligations.AdcAbsoluteDataOutOfBoundsFaults := by
  intro addr s k h
  rw [← compose_toNat] at h ⊢
  exact adcFromMemory_of_firstOutOfBounds (far := none) 0x6D 2 4 h

/-- Settles O27: the data bytes at `compose(bank, operand)` are the value added. -/
theorem adcLongCompletes : Obligations.AdcLongCompletes := by
  refine ⟨fun bank lo hi v s h8 hv => ?_, fun bank lo hi v w s h8 hv hw => ?_⟩
  · have hread := readData_byte h8 (compose_append_toNat bank lo hi) hv
    exact adcLong_completes (encode_adcLong_append bank lo hi) (zext16_toNat v) hread
  · have hread := readData_word h8 (compose_append_toNat bank lo hi) hv hw
    exact adcLong_completes (encode_adcLong_append bank lo hi) (append_toNat v w) hread

/-- Settles O28: the data read of ADC absolute long is in the instruction's own bank. -/
theorem adcLongDataOutOfBoundsFaults : Obligations.AdcLongDataOutOfBoundsFaults := by
  intro bank addr s k h
  rw [← compose_toNat] at h ⊢
  exact adcFromMemory_of_firstOutOfBounds (far := some bank) 0x6F 3 5 h

end Sys2Proof.Machine
end

section
/-! PROOFS. LDA immediate: what `A` and `P.Z` hold after a load, and how it completes (spec/42_load.md R120 to R124). -/

namespace Sys2Proof.Machine

section
variable (v : Word) (r : CpuRegisters)

theorem ldaCore_a_of_8bit (h8 : accIs8 r = true) : (ldaCore v r).a = zext16 (loByte v) := if_pos h8

theorem ldaCore_a_of_16bit (h8 : accIs8 r = false) : (ldaCore v r).a = v := if_neg (by simp [h8])

/-- `P.Z` is computed from the whole new accumulator (R120). -/
theorem ldaCore_zero_iff : getFlag .zero (ldaCore v r) = true ↔ (ldaCore v r).a.toNat = 0 := by
  have hzero : getFlag .zero (ldaCore v r) = decide ((ldaCore v r).a = 0) := (flagOf_withFlag ..).trans (if_pos rfl)
  rw [hzero, decide_eq_true_eq, ← BitVec.toNat_inj]
  rfl

end

section
variable {imm : Imm} {r : CpuRegisters}

/-- An immediate of the mode's width is loaded whole: the 8-bit mask removes nothing from a zero-extended byte (R121). -/
theorem ldaCore_a_of_fits (hfits : imm.fits (accIs8 r) = true) : (ldaCore (immValue imm) r).a = immValue imm := by
  cases imm with
  | byte b => exact (ldaCore_a_of_8bit _ r hfits).trans (zext16_loByte_of_lt (zext16_toNat_lt b))
  | word w => exact ldaCore_a_of_16bit w r ((Bool.not_eq_true' _).mp hfits)

/-- The base cost of an immediate form is its length in bytes (R122). -/
theorem immBase_of_fits (hfits : imm.fits (accIs8 r) = true) : immBase r = BitVec.ofNat 8 (1 + imm.nbytes) := by
  cases imm with
  | byte b => exact if_pos hfits
  | word w => exact if_neg (by simpa [Imm.fits] using hfits)

end

section
variable {imm : Imm} {s : State}

/-- The state in which LDA of an immediate of the mode's width retires is `LdaDone`. -/
theorem ldaDone_of_retire (hfits : imm.fits (accIs8 s.regs) = true) :
    LdaDone (immValue imm).toNat (1 + imm.nbytes) (1 + imm.nbytes) s { s with
      regs := advancePc imm.nbytes (ldaCore (immValue imm) s.regs), out := .running (immBase s.regs) } := by
  have ha : (ldaCore (immValue imm) s.regs).a.toNat = (immValue imm).toNat := congrArg _ (ldaCore_a_of_fits hfits)
  have hz := ldaCore_zero_iff (immValue imm) s.regs
  rw [ha] at hz
  exact ⟨ha, hz, pcAdvances_advancePc imm.nbytes (ldaCore_pc (immValue imm) s.regs),
    congrArg StepOutput.running (immBase_of_fits hfits), ldaCore_keepsFlagsBut_zero (immValue imm) s.regs,
    ldaCore_keepsInertRegs (immValue imm) s.regs, fun _ => rfl⟩

/-- LDA of an immediate of the mode's width completes in every state, and a state that holds its bytes steps to the
same next state (R102). -/
theorem ldaImm_completes {bs : List Byte} {v : Nat} (hbs : encode (.ldaImm imm) = bs)
    (hfits : imm.fits (accIs8 s.regs) = true) (hv : (immValue imm).toNat = v) :
    ∃ t, exec (.ldaImm imm) s = .next t ∧ LdaDone v (1 + imm.nbytes) (1 + imm.nbytes) s t ∧
      (BytesAt s bs → step s = .next t) := by
  subst hbs hv
  exact ⟨_, rfl, ldaDone_of_retire hfits, stepRunsDecodedInstruction s (.ldaImm imm) hfits⟩

end

end Sys2Proof.Machine
end

section
/-! PROOFS. The statement of spec/42_load.md settled. -/

namespace Sys2Proof.Machine

/-- Settles O29: the immediate of the mode's width is the value loaded. -/
theorem ldaImmediateCompletes : Obligations.LdaImmediateCompletes := by
  refine ⟨fun b s h8 => ?_, fun lo hi s h8 => ?_⟩
  · exact ldaImm_completes (imm := .byte b) rfl h8 (zext16_toNat b)
  · have hfits : (Imm.word (hi ++ lo)).fits (accIs8 s.regs) = true := by rw [Imm.fits, h8]; rfl
    exact ldaImm_completes (encode_ldaImm_word_append lo hi) hfits (append_toNat lo hi)

end Sys2Proof.Machine
end

section
/-! PROOFS. NOP, STP and HALT: what a halt leaves, and which bytes halt (spec/43_control.md R125 to R132). -/

namespace Sys2Proof.Machine

/-- The next state every halting handler answers: all of the machine is as before, and the result is `Halted(3)`
(R98, R128). -/
theorem retireHalted_frame (s : State) :
    ∃ t, retireHalted s = .next t ∧ t.regs = s.regs ∧ KeepsMemory s t ∧ t.out = .halted 3 :=
  ⟨_, rfl, rfl, fun _ => rfl, rfl⟩

/-- Every byte outside the implemented ones halts: its table entry is the default one (R130, R131). -/
theorem halts_of_notMem_implementedOpcodes {op : Byte} (h : op ∉ implementedOpcodes) : Halts op := by
  have hop : implementedOpcodes.contains op = false := by simpa using h
  exact .inr (by rw [opcodeTable_halt hop])

end Sys2Proof.Machine
end

section
/-! PROOFS. The statements of spec/43_control.md settled. -/

namespace Sys2Proof.Machine

/-- Settles O30: the handler leaves the registers to the dispatcher, which advances `PC` past the opcode byte. -/
theorem nopCompletes : Obligations.NopCompletes := by
  intro s
  have hpc : PcAdvances 1 s.regs (advancePc 0 s.regs) := pcAdvances_advancePc 0 rfl
  exact ⟨_, rfl, hpc, rfl, fun _ => rfl, rfl, stepRunsDecodedInstruction s .nop rfl⟩

/-- Settles O31: both bytes have the halting handler. -/
theorem stpCompletes : Obligations.StpCompletes := by
  intro s
  obtain ⟨t, ht, hregs, hmem, hout⟩ := retireHalted_frame s
  refine ⟨t, ht, ht, hregs, hmem, hout, ?_⟩
  rintro (h00 | hDB)
  · exact (stepRunsDecodedInstruction s .stp00 rfl h00).trans ht
  · exact (stepRunsDecodedInstruction s .stpDB rfl hDB).trans ht

/-- Settles O32: the default entry halts as STP does, and a halting byte has no operand to fetch. -/
theorem haltCompletes : Obligations.HaltCompletes := by
  intro op s hop
  obtain ⟨t, ht, hregs, hmem, hout⟩ := retireHalted_frame s
  have hhalt : Halts op := halts_of_notMem_implementedOpcodes hop
  exact ⟨t, ht, ht, hregs, hmem, hout, fun h => (step_of_halts h hhalt).trans ht⟩

end Sys2Proof.Machine
end

section
/-! PROOFS. When a step can fault: which access failed, at which address, and that no other access of the step can
fail (spec/60_exceptions.md R135, R137). -/

namespace Sys2Proof.Machine

/-! ### Completion where the operand bytes are in bounds (R137) -/

/-- The operand bytes are read from memory alone, so that all of them in bounds make an instruction (R91, R92). -/
theorem fetchOperands_of_lt {s : State} {op : Byte}
    (h : (instrAddr s.regs).toNat + (opcodeTable op).cls.operandBytes (accIs8 s.regs) < s.mem.size) :
    ∃ i, i.opcode = op ∧ fetchOperands s op = .ok i := by
  cases hi : fetchOperands s op with
  | ok i =>
    obtain ⟨hop, -⟩ := decodeOp_ok.mp hi
    exact ⟨i, hop, rfl⟩
  | error e =>
    obtain ⟨k, hk, herr, -⟩ := decodeOp_error hi
    obtain ⟨b, hb⟩ := fetchByte_of_lt (s := s) .operand (k := k + 1) (by omega)
    exact nomatch herr.symm.trans hb

/-- Only the two forms of ADC from memory make an access of their own: every other instruction completes. -/
theorem exec_next_of_opcode_ne {i : Instr} (habs : i.opcode ≠ 0x6D) (hlong : i.opcode ≠ 0x6F) (s : State) :
    ∃ t, exec i s = .next t := by
  cases i with
  | adcAbs => exact absurd rfl habs
  | adcLong => exact absurd rfl hlong
  | adcImm | ldaImm | nop | stp00 | stpDB | halt => exact ⟨_, rfl⟩

/-! ### The address of a failed access -/

/-- The address of a failed access: not below `MEM_SIZE`, and small enough for the 25 bits of the record (R135). -/
def OutsideImage (m : Memory) (a : Nat) : Prop := m.size ≤ a ∧ a < 2 ^ 25

theorem OutsideImage.size_le_toNat {m : Memory} {a : Nat} (h : OutsideImage m a) :
    m.size ≤ (BitVec.ofNat 25 a).toNat := by
  obtain ⟨hout, hfit⟩ := h
  rwa [BitVec.toNat_ofNat, Nat.mod_eq_of_lt hfit]

/-- An access at most three bytes past a 24-bit address has a 25-bit address. -/
theorem outsideImage_of_addr {m : Memory} (base : Addr) {a : Nat} (hout : m.size ≤ a) (hnear : a ≤ base.toNat + 3) :
    OutsideImage m a := by
  have hbase := base.isLt
  exact ⟨hout, by omega⟩

theorem getWord_error {m : Memory} {a e : Nat} (h : m.getWord a = .error e) : m.size ≤ e ∧ e ≤ a + 1 := by
  obtain h | ⟨-, h⟩ := resolveWordAt_error (rd := m.getByte) h
  · obtain ⟨rfl, hout⟩ := getByte_error h
    exact ⟨hout, Nat.le_succ e⟩
  · obtain ⟨rfl, hout⟩ := getByte_error h
    exact ⟨hout, Nat.le_refl _⟩

theorem except_map_error {ε α β : Type} {x : Except ε α} {f : α → β} {e : ε} (h : x.map f = .error e) :
    x = .error e := by
  cases x with
  | error e' => exact congrArg _ (Except.error.inj h)
  | ok a => cases h

theorem fetchByte_error {s : State} {ph : Phase} {k : Nat} {e : MemError} (h : fetchByte s ph k = .error e)
    (hk : k ≤ 3) : e.phase = ph ∧ OutsideImage s.mem e.addr := by
  obtain ⟨hph, herr⟩ := labelled_error.mp h
  obtain ⟨haddr, hout⟩ := getByte_error herr
  exact ⟨hph, outsideImage_of_addr (instrAddr s.regs) (haddr ▸ hout) (by omega)⟩

/-- No class has more than three operand bytes (R66). -/
theorem operandBytes_le (m : Bool) (c : WidthClass) : c.operandBytes m ≤ 3 := by
  cases c <;> cases m <;> decide

theorem fetchOperands_error {s : State} {op : Byte} {e : MemError} (h : fetchOperands s op = .error e) :
    (opcodeTable op).cls ≠ .none ∧ e.phase = .operand ∧ OutsideImage s.mem e.addr := by
  obtain ⟨k, hk, herr, -⟩ := decodeOp_error h
  refine ⟨fun hnone => ?_, fetchByte_error herr (hk.trans_le (operandBytes_le _ _))⟩
  rw [hnone] at hk
  exact Nat.not_lt_zero k hk

theorem readData_error {r : CpuRegisters} {m : Memory} {ea : Addr} {e : MemError} (h : readData r m ea = .error e) :
    e.phase = .data ∧ OutsideImage m e.addr := by
  cases h8 : accIs8 r with
  | true =>
    rw [readData_of_8bit h8] at h
    obtain ⟨hph, herr⟩ := labelled_error.mp (except_map_error h)
    obtain ⟨haddr, hout⟩ := getByte_error herr
    exact ⟨hph, outsideImage_of_addr ea (haddr ▸ hout) (by omega)⟩
  | false =>
    rw [readData_of_16bit h8] at h
    obtain ⟨hph, herr⟩ := labelled_error.mp h
    obtain ⟨hout, hnear⟩ := getWord_error herr
    exact ⟨hph, outsideImage_of_addr ea hout (by omega)⟩

/-! ### What a fault says -/

/-- The accesses of a step that can fail, by phase and by the opcode byte the record names (R135, R137). -/
inductive MayFail (s : State) : Phase → Option Byte → Prop where
  | opcode : MayFail s .opcode none
  | operand {op : Byte} (hop : OpcodeIs s op) (hcls : (opcodeTable op).cls ≠ .none) : MayFail s .operand (some op)
  | data {op : Byte} (hop : OpcodeIs s op) (hadc : op = 0x6D ∨ op = 0x6F) : MayFail s .data (some op)

/-- A fault of the state `s` with a truthful record: some access that may fail, at an address outside the image. -/
def TruthfulFault (s : State) (f : Fault) : Prop :=
  ∃ ph a op, f = oobFault ph a (instrAddr s.regs) op ∧ MayFail s ph op ∧ OutsideImage s.mem a

theorem truthfulFault_of_raiseFault {s : State} {f : Fault} {op : Option Byte} {e : MemError}
    (h : raiseFault s op e = .fault f) (hfail : MayFail s e.phase op) (hout : OutsideImage s.mem e.addr) :
    TruthfulFault s f :=
  ⟨e.phase, e.addr, op, (Host.Outcome.fault.inj h).symm, hfail, hout⟩

theorem adcFromMemory_fault {s : State} {f : Fault} {op : Byte} {far : Option Byte} {offset : Word} {nbytes : Nat}
    {base : BitVec 8} (hop : OpcodeIs s op) (hadc : op = 0x6D ∨ op = 0x6F)
    (h : adcFromMemory op far offset nbytes base s = .fault f) : TruthfulFault s f := by
  obtain ⟨e, herr, hx⟩ | ⟨v, -, hx⟩ := adcFromMemory_cases op far offset nbytes base s
  · obtain ⟨hph, hout⟩ := readData_error herr
    exact truthfulFault_of_raiseFault (hx.symm.trans h) (hph ▸ .data hop hadc) hout
  · exact nomatch hx.symm.trans h

theorem exec_fault {s : State} {f : Fault} {i : Instr} (hop : OpcodeIs s i.opcode) (h : exec i s = .fault f) :
    TruthfulFault s f := by
  cases i with
  | adcAbs => exact adcFromMemory_fault hop (.inl rfl) h
  | adcLong => exact adcFromMemory_fault hop (.inr rfl) h
  | adcImm | ldaImm | nop | stp00 | stpDB | halt => exact nomatch h

/-- Every fault of a step is that of its opcode fetch, of its operand fetch or of its handler's data read. -/
theorem step_fault {s : State} {f : Fault} (h : step s = .fault f) : TruthfulFault s f := by
  obtain ⟨e, herr, hs⟩ | ⟨op, e, hop, herr, hs⟩ | ⟨op, i, hop, hi, hs⟩ := step_cases s
  · obtain ⟨hph, hout⟩ := fetchByte_error herr (Nat.zero_le 3)
    exact truthfulFault_of_raiseFault (hs.symm.trans h) (hph ▸ .opcode) hout
  · obtain ⟨hcls, hph, hout⟩ := fetchOperands_error herr
    exact truthfulFault_of_raiseFault (hs.symm.trans h) (hph ▸ .operand (fetchOpcode_ok.mp hop) hcls) hout
  · obtain ⟨rfl, -⟩ := decodeOp_ok.mp hi
    exact exec_fault (fetchOpcode_ok.mp hop) (hs.symm.trans h)

section
variable {s : State} {ph : Phase} {op : Option Byte} (h : MayFail s ph op)
include h

theorem MayFail.eq_none_iff : op = none ↔ ph = .opcode := by
  cases h <;> simp

theorem MayFail.opcodeIs {b : Byte} (hb : op = some b) : OpcodeIs s b := by
  cases h with
  | opcode => cases hb
  | operand hop | data hop => exact Option.some.inj hb ▸ hop

theorem MayFail.adc_of_data (hph : ph = .data) : op = some 0x6D ∨ op = some 0x6F := by
  cases h with
  | opcode | operand => cases hph
  | data _ hadc => exact hadc.imp (congrArg some) (congrArg some)

theorem MayFail.cls_of_operand (hph : ph = .operand) : ∃ b, op = some b ∧ (opcodeTable b).cls ≠ .none := by
  cases h with
  | opcode | data => cases hph
  | operand _ hcls => exact ⟨_, rfl, hcls⟩

end

end Sys2Proof.Machine
end

section
/-! PROOFS. The statements of spec/60_exceptions.md settled. -/

namespace Sys2Proof.Machine

/-- Settles O15: the operand bytes make an instruction, and its handler makes no access of its own. -/
theorem stepCompletesWithoutDataRead : Obligations.StepCompletesWithoutDataRead := by
  intro s op hop habs hlong hlt
  obtain ⟨i, rfl, hi⟩ := fetchOperands_of_lt hlt
  obtain ⟨t, ht⟩ := exec_next_of_opcode_ne habs hlong s
  exact ⟨t, (step_of_fetched hop hi).trans ht⟩

/-- Settles O20: a fault comes from one of the three accesses that may fail, and its record says which. -/
theorem everyFaultIsOutOfBounds : Obligations.EveryFaultIsOutOfBounds := by
  intro s f h
  obtain ⟨ph, a, op, rfl, hfail, hout⟩ := step_fault h
  exact ⟨_, rfl, rfl, rfl, hout.size_le_toNat, hfail.eq_none_iff, fun _ => hfail.opcodeIs, hfail.adc_of_data,
    hfail.cls_of_operand⟩

end Sys2Proof.Machine
end

section
/-! PROOFS. Reset: the flags it leaves, and where the first step after it fetches (spec/70_reset_and_hazards.md R155 to
R158). -/

namespace Sys2Proof.Machine

@[simp] theorem resetCore_regs (rp : ResetParams) (s : State) : (resetCore rp s).regs = CpuRegisters.reset rp := rfl
@[simp] theorem resetCore_mem (rp : ResetParams) (s : State) : (resetCore rp s).mem = s.mem := rfl

/-- A status register of 00 has every flag clear (R27). -/
theorem flagOf_zero (f : Flag) : flagOf 0x00 f = false := BitVec.getLsbD_zero

/-- The entry point: bank 80, offset 8000 (R156). -/
theorem instrAddr_reset (rp : ResetParams) : instrAddr (CpuRegisters.reset rp) = 0x808000 := by
  rw [instrAddr, reset_pbr, reset_pc]
  decide

theorem instrAddr_reset_toNat (rp : ResetParams) : (instrAddr (CpuRegisters.reset rp)).toNat = 0x808000 :=
  congrArg BitVec.toNat (instrAddr_reset rp)

/-- The first opcode after reset is the byte of the entry point, in the memory as it was (R155, R156). -/
theorem opcodeIs_resetCore {rp : ResetParams} {s : State} {op : Byte} :
    OpcodeIs (resetCore rp s) op ↔ s.mem.getByte 0x808000 = .ok op := by
  rw [OpcodeIs, resetCore_mem, resetCore_regs, instrAddr_reset_toNat]

end Sys2Proof.Machine
end

section
/-! PROOFS. The statements of spec/70_reset_and_hazards.md settled. -/

namespace Sys2Proof.Machine

/-- Settles O44: the entry point is the first instruction address, and NOP there only advances the `PC`. -/
theorem firstStepAfterResetFetchesEntryPoint : Obligations.FirstStepAfterResetFetchesEntryPoint := by
  intro rp s
  refine ⟨fun hsize => ?_, fun hbyte => ⟨_, step_of_nop (opcodeIs_resetCore.mpr hbyte), ?_, rfl, rfl⟩⟩
  · have hfault := opcodeFetchOutOfBoundsFaults (resetCore rp s)
    rw [resetCore_mem, resetCore_regs, instrAddr_reset_toNat, instrAddr_reset] at hfault
    exact hfault hsize
  · rw [advancePc_pc, resetCore_regs, reset_pc]
    decide

/-- Settles O43: reset replaces the whole register record and nothing else, and P = 00 has every flag clear. -/
theorem resetSetsDocumentedRegisters : Obligations.ResetSetsDocumentedRegisters := by
  intro rp s
  refine ⟨resetCore_regs rp s, resetCore_mem rp s, fun f => ?_⟩
  rw [getFlag, resetCore_regs, reset_p, flagOf_zero]

end Sys2Proof.Machine
end
